-- ==== Sys2Proof/Word.lean ====
section
/-! DEFINITION. The two word types of the machine: the byte and the nine-bit address (00_scope.md R5, R6). -/

namespace Sys2Proof

/-- A memory cell, a general register, an ALU operand, an operand byte: eight bits, unsigned (R5 `CELL_W`, `XLEN`). -/
abbrev Byte := BitVec 8

/-- The program counter and the fetch port's address: nine bits, so that 256, "ran off the end of memory", is a
value of its own (R5 `PC_W`, R14, R138). -/
abbrev Addr := BitVec 9

/-- An ALU operation tag (R133 `op`). -/
abbrev AluTag := BitVec 2

end Sys2Proof
end

