-- ==== Sys2Proof/Syntax.lean ====
section
/-! DEFINITION. The eight instructions (30_encoding.md R54; spec/opcode_table.json). An operand is the WHOLE operand
byte: a register index is not a three-bit field (R12, R53), so an instruction with an index above 7 is an instruction
like any other, and whether it faults is a matter of its execution. -/

namespace Sys2Proof

/-- The eight rows of the opcode map (R54), the decoder's `instr` output (R131). -/
inductive Opcode where
  | hlt
  | prn
  | jmp
  | jeq
  | jne
  | ldi
  | mul
  | cmp
  deriving DecidableEq, Repr

/-- A decoded instruction with its operand bytes `opa` and `opb` (R51, R59). -/
inductive Instr where
  | hlt
  | prn (a : Byte)
  | jmp (a : Byte)
  | jeq (a : Byte)
  | jne (a : Byte)
  | ldi (a : Byte) (imm : Byte)
  | mul (a : Byte) (b : Byte)
  | cmp (a : Byte) (b : Byte)
  deriving DecidableEq, Repr

/-- The row of the opcode map that an instruction belongs to. -/
def Instr.opcode : Instr → Opcode
  | .hlt => .hlt
  | .prn _ => .prn
  | .jmp _ => .jmp
  | .jeq _ => .jeq
  | .jne _ => .jne
  | .ldi _ _ => .ldi
  | .mul _ _ => .mul
  | .cmp _ _ => .cmp

/-- The operand bytes in memory order, `opa` first (R32, R51). -/
def Instr.operands : Instr → List Byte
  | .hlt => []
  | .prn a => [a]
  | .jmp a => [a]
  | .jeq a => [a]
  | .jne a => [a]
  | .ldi a imm => [a, imm]
  | .mul a b => [a, b]
  | .cmp a b => [a, b]

end Sys2Proof
end

