-- ==== Sys2Proof/Decode.lean ====
section
/-! DEFINITION. The instruction decoder and the encoder (30_encoding.md R50 to R56, R62; 40_execution_cycle.md R74). -/

namespace Sys2Proof

/-! ### The opcode map -/

/-- The opcode byte of each row of R54. -/
def Opcode.byte : Opcode → Byte
  | .hlt => 0b00000001
  | .prn => 0b01000111
  | .jmp => 0b01010100
  | .jeq => 0b01010101
  | .jne => 0b01010110
  | .ldi => 0b10000010
  | .mul => 0b10100010
  | .cmp => 0b10100111

/-- The rows of R54 in the table's order. -/
def allOpcodes : List Opcode := [.hlt, .prn, .jmp, .jeq, .jne, .ldi, .mul, .cmp]

/-- `decode(ir)` of R74: all eight bits of the byte are matched against the map (R52, R62); a byte that is in no row is
undefined (`none`), whatever its bits 5 and 4 say. It depends on the byte alone (R58). -/
def decodeOpcode (ir : Byte) : Option Opcode := allOpcodes.find? (fun o => o.byte == ir)

/-- `ir[7:6]`, the operand count (R50). -/
def operandCount (ir : Byte) : BitVec 2 := ir.extractLsb' 6 2

/-- The operand count of an instruction, read from its opcode byte. -/
def Instr.nOps (i : Instr) : BitVec 2 := operandCount i.opcode.byte

/-! ### Decoding a list of bytes -/

/-- What the decoder answers on a list of bytes: the instruction and the bytes after it, or the reason there is none. -/
inductive Decoded where
  /-- An instruction, and the bytes after its last byte. -/
  | instr (i : Instr) (rest : List Byte)
  /-- There is no opcode byte. -/
  | noOpcode
  /-- The opcode byte is in no row of R54. -/
  | unknownOpcode (ir : Byte)
  /-- The opcode is defined but its operand byte number `k` (1 or 2) is not there. -/
  | missingOperand (k : Nat)
  deriving DecidableEq, Repr

/-- Format F1 (R51): one operand byte. -/
def decodeF1 (mk : Byte → Instr) : List Byte → Decoded
  | [] => .missingOperand 1
  | a :: rest => .instr (mk a) rest

/-- Formats F2I and F2R (R51): two operand bytes, `opa` first. -/
def decodeF2 (mk : Byte → Byte → Instr) : List Byte → Decoded
  | [] => .missingOperand 1
  | [_] => .missingOperand 2
  | a :: b :: rest => .instr (mk a b) rest

/-- The operand bytes of a defined opcode, as many as its format has (R51). -/
def decodeOperands (o : Opcode) (bytes : List Byte) : Decoded :=
  match o with
  | .hlt => .instr .hlt bytes
  | .prn => decodeF1 .prn bytes
  | .jmp => decodeF1 .jmp bytes
  | .jeq => decodeF1 .jeq bytes
  | .jne => decodeF1 .jne bytes
  | .ldi => decodeF2 .ldi bytes
  | .mul => decodeF2 .mul bytes
  | .cmp => decodeF2 .cmp bytes

/-- The decoder, total on any bytes (R62): byte 0 against the eight values; if none matches, unknown opcode, whatever
follows; otherwise the operand bytes. -/
def decode : List Byte → Decoded
  | [] => .noOpcode
  | ir :: bytes =>
    match decodeOpcode ir with
    | none => .unknownOpcode ir
    | some o => decodeOperands o bytes

/-! ### Encoding -/

/-- The bytes of an instruction in memory order (R51, R59). -/
def encode (i : Instr) : List Byte := i.opcode.byte :: i.operands

/-! ### Words as spec/opcode_table.json numbers them -/

/-- The three bytes (the longest instruction) of a word `w` whose bits from `nbits` upward count as 0: the opcode is
bits 7..0, `opa` bits 15..8, `opb` bits 23..16. -/
def tableBytes (nbits w : Nat) : List Byte :=
  let v := w % 2 ^ nbits
  [BitVec.ofNat 8 v, BitVec.ofNat 8 (v / 256), BitVec.ofNat 8 (v / 65536)]

/-- The instruction that the decoder reads from a word of the opcode table, `none` where it refuses. -/
def decodeTableWord (nbits w : Nat) : Option Instr :=
  match decode (tableBytes nbits w) with
  | .instr i _ => some i
  | .noOpcode => none
  | .unknownOpcode _ => none
  | .missingOperand _ => none

end Sys2Proof
end

