-- ==== Sys2Proof/Config.lean ====
section
/-! DEFINITION. The fixed sizes and codes of the machine (00_scope.md R5, 10_state.md R26, 50_blocks_and_interfaces.md
R133). The spec leaves one parameter open, the memory image `IMAGE`: it is the argument of
`Sys2Proof.Machine.launch`, not a constant here. No instruction leaves a value open, so there is no free value. -/

namespace Sys2Proof.Config

/-- R5 `MEM_SIZE`: the cells are numbered 0..255. -/
abbrev memSize : Nat := 256

/-- R5 `NREGS`: the registers are numbered 0..7. -/
abbrev nregs : Nat := 8

/-- What a cell that nothing has written holds: the memory is "zero-initialized" (R23, R26). -/
abbrev emptyByte : Byte := 0#8

/-- The reset value of each general register (R26; the spec's own choice D7; assumption 1). -/
abbrev resetRegister : Byte := 0#8

/-- The entry point (R26, R37, R191). -/
abbrev resetPc : Addr := 0#9

/-- R133: the tag of the ALU operation ADD, which no instruction uses (R119). -/
abbrev aluAdd : AluTag := 0b00#2

/-- R133: the tag of MUL. -/
abbrev aluMul : AluTag := 0b01#2

/-- R133: the tag of CMP. -/
abbrev aluCmp : AluTag := 0b10#2

end Sys2Proof.Config
end

