-- ==== Sys2Proof/Machine/State.lean ====
section
/-! DEFINITION. The state of the machine, whole (10_state.md: eight registers, PC, three flags, RUN, the memory and the
output trace; "Nothing else persists from one step to the next"), the reasons a step can stop, and the state after
reset (R26). -/

namespace Sys2Proof.Machine

/-- A fault of the spec with the value it records (60_exceptions.md R161): the four kinds by name, each with its `info`
at the width that value has. This is the machine's own FAULTED state, which a step ENTERS (R165), not the host's
`Outcome.fault`. -/
inductive FaultCause where
  /-- The byte fetched as an opcode is none of the eight (R162); records the byte. -/
  | unknownOpcode (ir : Byte)
  /-- A memory access above 255 (R163); records the address. -/
  | outOfRange (addr : Addr)
  /-- A register file access with an index above 7 (R164); records the index. -/
  | invalidRegister (index : Byte)
  /-- The ALU was given a tag with no operation (R120); records the tag. No instruction raises it. -/
  | unsupportedOperation (tag : AluTag)
  deriving DecidableEq, Repr

/-- `RUN` (R20). -/
inductive RunState where
  | running
  | halted
  | faulted (c : FaultCause)
  deriving DecidableEq, Repr

/-- `FL` (R17): three Booleans, as R19 asks. -/
structure Flags where
  /-- `FL.L`, LESS_THAN. -/
  l : Bool
  /-- `FL.G`, GREATER_THAN. -/
  g : Bool
  /-- `FL.E`, EQUAL. -/
  e : Bool
  deriving DecidableEq, Repr

/-- `M` (R23): the cells that differ from `Config.emptyByte`, by strictly rising address; `Memory.wf` says so. -/
abbrev Memory := List Host.Cell

/-- The whole state (10_state.md). -/
structure State where
  /-- `x[0..7]`, the general registers (R10, R11). -/
  x : Vector Byte 8
  /-- `PC` (R14). -/
  pc : Addr
  /-- `FL` (R17). -/
  fl : Flags
  /-- `RUN` (R20). -/
  run : RunState
  /-- `M[0..255]` (R23). -/
  mem : Memory
  /-- `OUT`, the bytes printed since reset, oldest first (R24). -/
  out : List Byte
  deriving DecidableEq, Repr

/-- Why no step is taken (R70; decision D20: in HALTED and FAULTED "there is no step at all"). Raised by `step` and by
`blockStep` alone, never by the meaning of an instruction. -/
inductive Fault where
  /-- `RUN = HALTED`: no step is taken. Safe: the spec gives the machine no step here. -/
  | halted
  /-- `RUN = FAULTED(c)`: no step is taken. Safe: the spec gives the machine no step here. -/
  | faulted (c : FaultCause)
  deriving DecidableEq, Repr

/-- Why a request is refused. -/
inductive Refusal where
  /-- An instruction whose meaning is not written. Raised by no arm of `exec`: every instruction has its meaning.
  Safe: a refused step proves nothing of the hardware. -/
  | notModelled (mnemonic : String)
  /-- `launch` with an image longer than 256 bytes (R38, decision D17: "a model refuses such a launch"). Raised by
  `launch` alone. Safe: no run starts. -/
  | imageTooLong (length : Nat)
  deriving DecidableEq, Repr

/-- `FL` after reset: all clear (R26; the spec's own choice D8; assumption 2). -/
def Flags.clear : Flags := { l := false, g := false, e := false }

/-- The state after reset with nothing loaded (R26, R190). -/
def State.reset : State :=
  { x := Vector.replicate 8 Config.resetRegister
    pc := Config.resetPc
    fl := Flags.clear
    run := .running
    mem := []
    out := [] }

end Sys2Proof.Machine
end

