-- ==== Sys2Proof/Machine/Flags.lean ====
section
/-! DEFINITION. The flags computation and the flag read (44_alu.md R118; 10_state.md R19). -/

namespace Sys2Proof.Machine

/-- `compare(a, b)` (R118): unsigned order, one flag set and the other two clear. -/
def compareFlags (a b : Byte) : Flags :=
  { l := decide (a.toNat < b.toNat), g := decide (a.toNat > b.toNat), e := decide (a.toNat = b.toNat) }

/-- `is_equal()` (R118): the one read of the flags that any instruction makes. -/
def isEqual (f : Flags) : Bool := f.e

/-- The packed form for the host's read-out (R19): bit 2 is L, bit 1 is G, bit 0 is E, bits 7..3 zero. -/
def packFlags (f : Flags) : Byte := BitVec.ofNat 8 (4 * f.l.toNat + 2 * f.g.toNat + f.e.toNat)

end Sys2Proof.Machine
end

