-- ==== Sys2Proof/Machine/Ops.lean ====
section
/-! DEFINITION. The named operations over the state: the memory's read and write with their range check (20_memory.md
R30), taking a fault (60_exceptions.md R165), the program counter's advance (R72, R135), and the commit of an
instruction's effect, all at once (40_execution_cycle.md R71 steps 5 and 6). -/

namespace Sys2Proof.Machine

/-! ### The memory -/

/-- The byte of one cell; a cell that is not listed holds `Config.emptyByte`. -/
def Memory.read : Memory → Nat → Byte
  | [], _ => Config.emptyByte
  | (k, v) :: m, a => if k = a then v else Memory.read m a

/-- Writes one cell. The list stays strictly rising, and a cell that comes to hold `Config.emptyByte` leaves it. -/
def Memory.write : Memory → Nat → Byte → Memory
  | [], a, v => if v = Config.emptyByte then [] else [(a, v)]
  | (k, w) :: m, a, v =>
    if a < k then (if v = Config.emptyByte then (k, w) :: m else (a, v) :: (k, w) :: m)
    else if a = k then (if v = Config.emptyByte then m else (k, v) :: m)
    else (k, w) :: Memory.write m a v

/-- The canonical form above a bound: addresses from `lo` on, strictly rising, all below 256, no cell listed that holds
`Config.emptyByte`. -/
def Memory.wfFrom : Nat → Memory → Bool
  | _, [] => true
  | lo, (k, v) :: m =>
    decide (lo ≤ k) && decide (k < Config.memSize) && decide (v ≠ Config.emptyByte) && Memory.wfFrom (k + 1) m

/-- The canonical form of a memory. -/
def Memory.wf (m : Memory) : Bool := Memory.wfFrom 0 m

/-- Writes a list of bytes at rising addresses from `a`; a byte that would fall above 255 is not written (there is no
cell for it; `launch` refuses an image with such a byte). -/
def Memory.load : Nat → List Byte → Memory → Memory
  | _, [], m => m
  | a, b :: bs, m => Memory.load (a + 1) bs (if a < Config.memSize then m.write a b else m)

/-- The memory's `read` (R30): the byte, or OutOfRange with the address. No side effect (R36). -/
def memRead (s : State) (addr : Addr) : Except FaultCause Byte :=
  if addr.toNat < Config.memSize then .ok (s.mem.read addr.toNat) else .error (.outOfRange addr)

/-- The memory's `write` (R30), which no instruction uses (R35): the Loader's alone. -/
def memWrite (s : State) (addr : Addr) (v : Byte) : Except FaultCause State :=
  if addr.toNat < Config.memSize then .ok { s with mem := s.mem.write addr.toNat v } else .error (.outOfRange addr)

/-! ### Taking a fault -/

/-- `raise K(info)` (R165): `RUN <- FAULTED(K, info)` and nothing else. There is no saved state, no handler and no
return (R167): the run has ended. -/
def raise (c : FaultCause) (s : State) : State := { s with run := .faulted c }

/-! ### The program counter -/

/-- The sequential successor `PC + n_ops + 1`, on nine bits (R135); it does not wrap at 256. -/
def advance (pc : Addr) (n : BitVec 2) : Addr := pc + n.setWidth 9 + 1

/-! ### The effect of an instruction and its commit -/

/-- What an Operation yields when it does not fault (R71 step 5). -/
structure Effect where
  /-- `reg_write`: a register and its new value. -/
  regWrite : Option (Fin 8 × Byte) := none
  /-- `fl_write`: all three flags at once. -/
  flWrite : Option Flags := none
  /-- `out_byte`: the byte printed. -/
  outByte : Option Byte := none
  /-- `halt`. -/
  halt : Bool := false
  /-- `target`: present exactly when a branch is taken. -/
  target : Option Byte := none
  deriving DecidableEq, Repr

/-- The registers after an effect. -/
def Effect.regs (e : Effect) (x : Vector Byte 8) : Vector Byte 8 :=
  match e.regWrite with
  | none => x
  | some (i, v) => x.set i v

/-- `PC` after an effect: the target when there is one, else the sequential successor (R72). -/
def Effect.nextPc (e : Effect) (n : BitVec 2) (pc : Addr) : Addr :=
  match e.target with
  | none => advance pc n
  | some t => t.setWidth 9

/-- R71 step 6: all of an effect at once, on the state as it was at the start of the step. -/
def commit (n : BitVec 2) (e : Effect) (s : State) : State :=
  { x := e.regs s.x
    pc := e.nextPc n s.pc
    fl := e.flWrite.getD s.fl
    run := if e.halt then .halted else s.run
    mem := s.mem
    out := s.out ++ e.outByte.toList }

/-- The end of a step: the commit of the effect, or the fault that the Operation raised. -/
def finish (n : BitVec 2) (r : Except FaultCause Effect) (s : State) : Host.Outcome State Fault Refusal :=
  match r with
  | .ok e => .next (commit n e s)
  | .error c => .next (raise c s)

end Sys2Proof.Machine
end

