-- ==== Sys2Proof/Machine/Operands.lean ====
section
/-! DEFINITION. The operand forms (30_encoding.md R53): a register index, as a source and as a destination, and the
immediate. The register file checks the whole index byte at the access (10_state.md R12). -/

namespace Sys2Proof.Machine

/-- The register file's index check: 0..7, or InvalidRegister with the byte (R12, R132). -/
def checkRegister (a : Byte) : Except FaultCause (Fin 8) :=
  if h : a.toNat < Config.nregs then .ok ⟨a.toNat, h⟩ else .error (.invalidRegister a)

/-- `x[a]` as a source: the register file's `get` (R7). -/
def readRegister (s : State) (a : Byte) : Except FaultCause Byte := (checkRegister a).map (fun i => s.x[i])

/-- `x[a] <- v` as an effect: the register file's `set` (R7). -/
def writeRegister (a : Byte) (v : Byte) : Except FaultCause Effect :=
  (checkRegister a).map (fun i => { regWrite := some (i, v) })

/-- The immediate of LDI: the byte as it stands, not extended, not scaled (R53). -/
def immediate (b : Byte) : Byte := b

end Sys2Proof.Machine
end

