-- ==== Sys2Proof/Machine/Alu.lean ====
section
/-! DEFINITION. The ALU's operations and MUL and CMP, the two instructions that use them (44_alu.md). ADD is an operation
of the ALU that no instruction selects (R119). -/

namespace Sys2Proof.Machine

/-- ADD on values (R121): `(a + b) mod 256`. -/
def addBytes (a b : Byte) : Byte := BitVec.ofNat 8 (a.toNat + b.toNat)

/-- MUL on values (R121): the low byte of the exact product. -/
def mulBytes (a b : Byte) : Byte := BitVec.ofNat 8 (a.toNat * b.toNat)

/-- What the ALU computes. -/
inductive AluResult where
  /-- ADD and MUL: the value for `x[a]`. -/
  | value (y : Byte)
  /-- CMP: the flags. -/
  | flags (f : Flags)
  /-- No operation has this tag (R120). -/
  | unsupported
  deriving DecidableEq, Repr

/-- The ALU on values (R133): ADD, MUL, CMP by tag, and no other. -/
def aluResult (tag : AluTag) (a b : Byte) : AluResult :=
  if tag = Config.aluAdd then .value (addBytes a b)
  else if tag = Config.aluMul then .value (mulBytes a b)
  else if tag = Config.aluCmp then .flags (compareFlags a b)
  else .unsupported

/-- The writes that a result asks for (R115): the first register for a value, the flags for a comparison, a fault for a
tag without an operation. -/
def aluEffect (tag : AluTag) (a : Byte) : AluResult → Except FaultCause Effect
  | .value y => writeRegister a y
  | .flags f => .ok { flWrite := some f }
  | .unsupported => .error (.unsupportedOperation tag)

/-- `apply(op, reg_a_index, reg_b_index)` (R115): `x[a]` is read, then `x[b]`, both before any write; the first invalid
index is the one reported, and a bad tag is found last (R166). -/
def aluApply (tag : AluTag) (a b : Byte) (s : State) : Except FaultCause Effect :=
  match readRegister s a, readRegister s b with
  | .error c, _ => .error c
  | .ok _, .error c => .error c
  | .ok va, .ok vb => aluEffect tag a (aluResult tag va vb)

/-- MUL a, b (R116). -/
def execMul (a : Byte) (b : Byte) (s : State) : Host.Outcome State Fault Refusal :=
  finish (Instr.mul a b).nOps (aluApply Config.aluMul a b s) s

/-- CMP a, b (R117). -/
def execCmp (a : Byte) (b : Byte) (s : State) : Host.Outcome State Fault Refusal :=
  finish (Instr.cmp a b).nOps (aluApply Config.aluCmp a b s) s

end Sys2Proof.Machine
end

