-- ==== Sys2Proof/Machine/Branches.lean ====
section
/-! DEFINITION. JMP, JEQ and JNE (42_branches.md). -/

namespace Sys2Proof.Machine

/-- The effect of a branch (R103): taken, the target is the content of `x[a]`; not taken, nothing, and the register file
is not accessed, so an index above 7 raises nothing (R101, R102). -/
def branchEffect (taken : Bool) (a : Byte) (s : State) : Except FaultCause Effect :=
  if taken then (readRegister s a).map (fun t => { target := some t }) else .ok {}

/-- JMP a (R100). -/
def execJmp (a : Byte) (s : State) : Host.Outcome State Fault Refusal :=
  finish (Instr.jmp a).nOps (branchEffect true a s) s

/-- JEQ a (R101): taken when `FL.E = 1`. -/
def execJeq (a : Byte) (s : State) : Host.Outcome State Fault Refusal :=
  finish (Instr.jeq a).nOps (branchEffect (isEqual s.fl) a s) s

/-- JNE a (R102): taken when `FL.E = 0`. -/
def execJne (a : Byte) (s : State) : Host.Outcome State Fault Refusal :=
  finish (Instr.jne a).nOps (branchEffect (!isEqual s.fl) a s) s

end Sys2Proof.Machine
end

