-- ==== Sys2Proof/Machine/HaltOutput.lean ====
section
/-! DEFINITION. HLT and PRN (41_halt_and_output.md). -/

namespace Sys2Proof.Machine

/-- HLT (R90): `RUN <- HALTED`, `PC <- PC + 1`. -/
def execHlt (s : State) : Host.Outcome State Fault Refusal :=
  finish Instr.hlt.nOps (.ok { halt := true }) s

/-- PRN a (R91): the byte in `x[a]` is appended to `OUT`. -/
def execPrn (a : Byte) (s : State) : Host.Outcome State Fault Refusal :=
  finish (Instr.prn a).nOps ((readRegister s a).map (fun v => { outByte := some v })) s

end Sys2Proof.Machine
end

