-- ==== Sys2Proof/Machine/LoadImmediate.lean ====
section
/-! DEFINITION. LDI (43_load_immediate.md). -/

namespace Sys2Proof.Machine

/-- LDI a, imm (R110): `x[a] <- imm`; no value of `imm` faults. -/
def execLdi (a : Byte) (imm : Byte) (s : State) : Host.Outcome State Fault Refusal :=
  finish (Instr.ldi a imm).nOps (writeRegister a (immediate imm)) s

end Sys2Proof.Machine
end

