-- ==== Sys2Proof/Machine/Fetch.lean ====
section
/-! DEFINITION. Fetching an instruction (40_execution_cycle.md R71 steps 1 to 3). -/

namespace Sys2Proof.Machine

/-- The bytes at `PC`, `PC + 1`, `PC + 2` that exist: a list that ends where the memory ends. It never wraps to address 0
(R30). Reading a byte that the instruction turns out not to have changes nothing (R36); the decoder looks at as many
as the instruction has (R34). -/
def fetchWindow (s : State) : List Byte :=
  ((List.range 3).map (fun k => s.pc.toNat + k)).filterMap
    (fun a => if a < Config.memSize then some (s.mem.read a) else none)

/-- R71 steps 1 to 3, with the faults in R71's order: OutOfRange on the opcode, UnknownOpcode, OutOfRange on the first
operand byte, OutOfRange on the second. -/
def fetch (s : State) : Except FaultCause Instr :=
  match decode (fetchWindow s) with
  | .instr i _ => .ok i
  | .noOpcode => .error (.outOfRange s.pc)
  | .unknownOpcode ir => .error (.unknownOpcode ir)
  | .missingOperand k => .error (.outOfRange (s.pc + BitVec.ofNat 9 k))

end Sys2Proof.Machine
end

