-- ==== Sys2Proof/Machine/Step.lean ====
section
/-! DEFINITION. One step (40_execution_cycle.md R70, R71). -/

namespace Sys2Proof.Machine

/-- One step. It is taken only while `RUN = RUNNING` (R70); a fault of the fetch is taken like any other (R165). -/
def step (s : State) : Host.Outcome State Fault Refusal :=
  match s.run with
  | .halted => .fault .halted
  | .faulted c => .fault (.faulted c)
  | .running =>
    match fetch s with
    | .error c => .next (raise c s)
    | .ok i => exec i s

/-- The state with an instruction of the opcode table stored where the next step fetches: at `PC`, three bytes, those
from bit `nbits` on zero. Nothing else changes (assumption 20). -/
def State.withFetchWord (s : State) (nbits w : Nat) : State :=
  { s with mem := Memory.load s.pc.toNat (tableBytes nbits w) s.mem }

end Sys2Proof.Machine
end

