-- ==== Sys2Proof/Machine/Launch.lean ====
section
/-! DEFINITION. What the host does and sees (50_blocks_and_interfaces.md R138 to R144; 70_reset_and_hazards.md R190 to
R192): reset, loading an image, the status port, the read-out. The host has no move during a run (R143). -/

namespace Sys2Proof.Machine

/-! ### Reset and launch -/

/-- Core reset (R139, R190, R192): every field at its reset value except the memory, which reset does not touch
(R144). It is the only way out of HALTED and FAULTED. -/
def coreReset (s : State) : State := { State.reset with mem := s.mem }

/-- The boot sequence (R191) for an image: zeroed memory, the image from address 0, the core at reset. An image longer
than the memory is refused (R38). -/
def launch (image : List Byte) : Host.Outcome State Fault Refusal :=
  if image.length ≤ Config.memSize then .next { State.reset with mem := Memory.load 0 image [] }
  else .refused (.imageTooLong image.length)

/-! ### The status port -/

/-- The code of a fault's kind (R161). -/
def FaultCause.code : FaultCause → BitVec 3
  | .unknownOpcode _ => 1
  | .outOfRange _ => 2
  | .invalidRegister _ => 3
  | .unsupportedOperation _ => 4

/-- The value a fault records, zero-extended to the port's nine bits (R142). -/
def FaultCause.info : FaultCause → BitVec 9
  | .unknownOpcode ir => ir.setWidth 9
  | .outOfRange addr => addr
  | .invalidRegister index => index.setWidth 9
  | .unsupportedOperation tag => tag.setWidth 9

/-- The status outputs (R142). -/
structure StatusPort where
  running : Bool
  halted : Bool
  faulted : Bool
  faultKind : BitVec 3
  faultInfo : BitVec 9
  deriving DecidableEq, Repr

/-- What the status port shows (R142): code 0 and info 0 when not faulted. -/
def statusPort (s : State) : StatusPort :=
  match s.run with
  | .running => { running := true, halted := false, faulted := false, faultKind := 0, faultInfo := 0 }
  | .halted => { running := false, halted := true, faulted := false, faultKind := 0, faultInfo := 0 }
  | .faulted c => { running := false, halted := false, faulted := true, faultKind := c.code, faultInfo := c.info }

/-! ### The read-out after the end -/

/-- What the host can read of the final state (R143): the registers, the packed flags (R19), `PC`. -/
structure ReadOut where
  x : Vector Byte 8
  fl : Byte
  pc : Addr
  deriving DecidableEq, Repr

/-- R143 "Read state". -/
def readOut (s : State) : ReadOut := { x := s.x, fl := packFlags s.fl, pc := s.pc }

end Sys2Proof.Machine
end

