-- ==== Sys2Proof/Machine/Blocks.lean ====
section
/-! DEFINITION. The six blocks with their ports (50_blocks_and_interfaces.md R131 to R135, R138). The spec calls some
outputs don't-care, or gives them no value for some inputs: each such value is taken from a `DontCare` argument, which
every statement about the blocks quantifies over (assumption 19). -/

namespace Sys2Proof.Machine

/-- The values that the port tables leave open. -/
structure DontCare where
  /-- The fetch port's address while nothing is requested, one of the values that the port presents (R138). -/
  memAddr : Fin 257
  /-- The fetch port's data when the address is out of range (R138). -/
  memRdata : Byte
  /-- `opa` and `opb` when the instruction has no such byte. -/
  opa : Byte
  opb : Byte
  /-- The decoder's outputs beside `valid` and `n_ops` when `valid = 0` (R131). -/
  instr : Opcode
  isBranch : Bool
  isAlu : Bool
  readsA : Bool
  readsB : Bool
  writesA : Bool
  /-- `alu_op` when the instruction is not MUL or CMP (R131). -/
  aluOp : AluTag
  /-- The register file's read data for an index above 7 (R132). -/
  raData : Byte
  rbData : Byte
  /-- The ALU's `y` where it is not a sum or a product, and `lge` where it is not a comparison (R133). -/
  y : Byte
  lge : Flags
  /-- `w_data` when no write is requested (R136). -/
  wData : Byte
  deriving DecidableEq, Repr

/-! ### The fetch port (R138) -/

/-- The four wires of the fetch port: `mem_addr` and `mem_re` out, `mem_rdata` and `mem_oor` in. There is no write
port. -/
structure FetchPort where
  addr : Addr
  re : Bool
  rdata : Byte
  oor : Bool
  deriving DecidableEq, Repr

/-- The memory's answer to an address: `mem_rdata` is `M[mem_addr]` for every address of at most 255, requested
or not, and `mem_oor` is `mem_addr[8]`. -/
def memoryAnswer (d : DontCare) (m : Memory) (addr : Addr) (re : Bool) : FetchPort :=
  { addr := addr, re := re
    rdata := if addr.getLsbD 8 then d.memRdata else m.read addr.toNat
    oor := addr.getLsbD 8 }

/-- One use of the fetch port: `addr` is presented when the read is wanted, and nothing is requested when it is not. -/
def fetchPort (d : DontCare) (m : Memory) (addr : Addr) (want : Bool) : FetchPort :=
  memoryAnswer d m (if want then addr else BitVec.ofNat 9 d.memAddr) want

/-- A request that the memory's range check refuses. -/
def FetchPort.failed (p : FetchPort) : Bool := p.re && p.oor

/-- A request that the memory answers with a byte. -/
def FetchPort.served (p : FetchPort) : Bool := p.re && !p.oor

/-! ### instruction_decoder (R131) -/

structure DecoderOut where
  valid : Bool
  instr : Opcode
  nOps : BitVec 2
  isBranch : Bool
  isAlu : Bool
  aluOp : AluTag
  readsA : Bool
  readsB : Bool
  writesA : Bool
  deriving DecidableEq, Repr

/-- A row of R131's truth table; `aluOp` is `none` where the table has a dash. -/
structure DecoderRow where
  ir : Byte
  instr : Opcode
  nOps : BitVec 2
  isBranch : Bool
  isAlu : Bool
  aluOp : Option AluTag
  readsA : Bool
  readsB : Bool
  writesA : Bool
  deriving DecidableEq, Repr

/-- R131's truth table. -/
def decoderTable : List DecoderRow := [
  ⟨0b00000001, .hlt, 0, false, false, none,               false, false, false⟩,
  ⟨0b01000111, .prn, 1, false, false, none,               true,  false, false⟩,
  ⟨0b01010100, .jmp, 1, true,  false, none,               true,  false, false⟩,
  ⟨0b01010101, .jeq, 1, true,  false, none,               true,  false, false⟩,
  ⟨0b01010110, .jne, 1, true,  false, none,               true,  false, false⟩,
  ⟨0b10000010, .ldi, 2, false, false, none,               false, false, true⟩,
  ⟨0b10100010, .mul, 2, false, true,  some Config.aluMul, true,  true,  true⟩,
  ⟨0b10100111, .cmp, 2, false, true,  some Config.aluCmp, true,  true,  false⟩]

/-- The decoder: the row of the table, or `valid = 0`. -/
def instructionDecoder (d : DontCare) (ir : Byte) : DecoderOut :=
  match decoderTable.find? (fun r => r.ir == ir) with
  | some r =>
    { valid := true, instr := r.instr, nOps := r.nOps, isBranch := r.isBranch, isAlu := r.isAlu,
      aluOp := r.aluOp.getD d.aluOp, readsA := r.readsA, readsB := r.readsB, writesA := r.writesA }
  | none =>
    { valid := false, instr := d.instr, nOps := operandCount ir, isBranch := d.isBranch, isAlu := d.isAlu,
      aluOp := d.aluOp, readsA := d.readsA, readsB := d.readsB, writesA := d.writesA }

/-! ### register_file (R132) -/

structure RegFileIn where
  raIdx : Byte
  raEn : Bool
  rbIdx : Byte
  rbEn : Bool
  wIdx : Byte
  wEn : Bool
  deriving DecidableEq, Repr

structure RegFileOut where
  raData : Byte
  rbData : Byte
  badIdx : Bool
  badIdxVal : Byte
  deriving DecidableEq, Repr

/-- One read port: the register when the index is at most 7. -/
def readPort (x : Vector Byte 8) (idx other : Byte) : Byte := if h : idx.toNat < 8 then x[idx.toNat] else other

/-- A port that is used with an index above 7. -/
def badPort (en : Bool) (idx : Byte) : Bool := en && decide (idx.toNat > 7)

/-- `bad_idx`: a used port has an index above 7. -/
def RegFileIn.badIdx (i : RegFileIn) : Bool :=
  badPort i.raEn i.raIdx || badPort i.rbEn i.rbIdx || badPort i.wEn i.wIdx

/-- The combinational outputs of the register file. `bad_idx_val` is `ra_idx` if read port A is the offender, else
`rb_idx` if read port B is, else `w_idx`. -/
def registerFile (d : DontCare) (x : Vector Byte 8) (i : RegFileIn) : RegFileOut :=
  { raData := readPort x i.raIdx d.raData
    rbData := readPort x i.rbIdx d.rbData
    badIdx := i.badIdx
    badIdxVal :=
      if badPort i.raEn i.raIdx then i.raIdx
      else if badPort i.rbEn i.rbIdx then i.rbIdx
      else i.wIdx }

/-- The registers at the end of the step: a requested write is made, unless `bad_idx` suppresses it. -/
def registerFileNext (x : Vector Byte 8) (i : RegFileIn) (wData : Byte) : Vector Byte 8 :=
  if h : i.wIdx.toNat < 8 then (if i.wEn && !i.badIdx then x.set i.wIdx.toNat wData else x) else x

/-! ### 8bit_alu (R133) -/

structure AluOut where
  y : Byte
  yWe : Bool
  lge : Flags
  flWe : Bool
  unsupported : Bool
  deriving DecidableEq, Repr

/-- The ALU's port view, combinational. -/
def aluBlock (d : DontCare) (op : AluTag) (a b : Byte) : AluOut :=
  match aluResult op a b with
  | .value y => { y := y, yWe := true, lge := d.lge, flWe := false, unsupported := false }
  | .flags f => { y := d.y, yWe := false, lge := f, flWe := true, unsupported := false }
  | .unsupported => { y := d.y, yWe := false, lge := d.lge, flWe := false, unsupported := true }

/-! ### flags_register (R134) -/

/-- The flags at the end of the step: the stored triple is replaced whole. -/
def flagsRegisterNext (fl : Flags) (we : Bool) (lgeIn : Flags) : Flags := if we then lgeIn else fl

/-! ### program_counter_control (R135) -/

/-- The next-state function of the program counter. -/
def programCounterControl (pc : Addr) (nOps : BitVec 2) (take : Bool) (target : Byte) (commit : Bool) : Addr :=
  if commit then (if take then target.setWidth 9 else pc + nOps.setWidth 9 + 1) else pc

end Sys2Proof.Machine
end

