-- ==== Sys2Proof/Machine/TopLevel.lean ====
section
/-! DEFINITION. The top level block: the sequence of one step and the glue between the blocks
(50_blocks_and_interfaces.md R136, R137, R141). A second reading of the machine, made from the port tables and not from
the instruction rules; `Obligations.BlockNetworkComputesTheStep` says that the two agree. -/

namespace Sys2Proof.Machine

/-- The bytes that the fetch unit has read. -/
structure Fetched where
  ir : Byte
  opa : Byte
  opb : Byte
  deriving DecidableEq, Repr

/-- The uses of the fetch port in one step, in their order. -/
structure FetchUses where
  opcode : FetchPort
  opa : FetchPort
  opb : FetchPort
  deriving DecidableEq, Repr

/-- What the fetch port carries during a step (R138): each read is requested only after the one before it was served,
the operand reads only for a defined opcode, and as many as `n_ops` says (R34, R71 steps 1 to 3). In HALTED and FAULTED
nothing is requested (R70). -/
def fetchUses (d : DontCare) (s : State) : FetchUses :=
  let p0 := fetchPort d s.mem s.pc (decide (s.run = .running))
  let dec := instructionDecoder d p0.rdata
  let p1 := fetchPort d s.mem (s.pc + 1) (p0.served && dec.valid && decide (dec.nOps.toNat ≥ 1))
  let p2 := fetchPort d s.mem (s.pc + 2) (p1.served && decide (dec.nOps.toNat = 2))
  { opcode := p0, opa := p1, opb := p2 }

/-- The addresses that a step requests from the memory, in order. -/
def requestedAddresses (d : DontCare) (s : State) : List Addr :=
  let u := fetchUses d s
  ([u.opcode, u.opa, u.opb].filter FetchPort.re).map FetchPort.addr

/-- The fetch of one step from what the port carries: a failed request raises OutOfRange(`mem_addr`) (R138), in the
order of R71. -/
def fetchUnit (d : DontCare) (s : State) : Except FaultCause Fetched :=
  let u := fetchUses d s
  if u.opcode.failed then .error (.outOfRange u.opcode.addr)
  else if !(instructionDecoder d u.opcode.rdata).valid then .error (.unknownOpcode u.opcode.rdata)
  else if u.opa.failed then .error (.outOfRange u.opa.addr)
  else if u.opb.failed then .error (.outOfRange u.opb.addr)
  else .ok
    { ir := u.opcode.rdata
      opa := if u.opa.re then u.opa.rdata else d.opa
      opb := if u.opb.re then u.opb.rdata else d.opb }

/-- The wires of the execute part of a step. -/
structure Wires where
  dec : DecoderOut
  take : Bool
  alu : AluOut
  rfIn : RegFileIn
  rf : RegFileOut
  wData : Byte
  fault : Option FaultCause
  flWe : Bool
  outValid : Bool
  outData : Byte
  halt : Bool
  commit : Bool
  deriving DecidableEq, Repr

/-- `take` (R136). -/
def takeWire (dec : DecoderOut) (equal : Bool) : Bool :=
  dec.valid && (decide (dec.instr = .jmp) || (decide (dec.instr = .jeq) && equal)
    || (decide (dec.instr = .jne) && !equal))

/-- The glue of R136. `unsupported` counts only for an ALU instruction, since the decoder gives the ALU no tag for any
other (R120; assumption 19). -/
def executeWires (d : DontCare) (s : State) (f : Fetched) : Wires :=
  let dec := instructionDecoder d f.ir
  let take := takeWire dec (isEqual s.fl)
  let raEn := dec.valid && dec.readsA && (!dec.isBranch || take)
  let rbEn := dec.valid && dec.readsB
  let alu := aluBlock d dec.aluOp (readPort s.x f.opa d.raData) (readPort s.x f.opb d.rbData)
  let wEn := dec.valid && (decide (dec.instr = .ldi) || (dec.isAlu && alu.yWe))
  let rfIn : RegFileIn := { raIdx := f.opa, raEn := raEn, rbIdx := f.opb, rbEn := rbEn, wIdx := f.opa, wEn := wEn }
  let rf := registerFile d s.x rfIn
  let fault : Option FaultCause :=
    if rf.badIdx then some (.invalidRegister rf.badIdxVal)
    else if dec.isAlu && alu.unsupported then some (.unsupportedOperation 3)
    else none
  { dec := dec
    take := take
    alu := alu
    rfIn := rfIn
    rf := rf
    wData := if dec.instr = .ldi then f.opb else if dec.isAlu then alu.y else d.wData
    fault := fault
    flWe := dec.valid && dec.isAlu && alu.flWe
    outValid := dec.valid && decide (dec.instr = .prn) && fault.isNone
    outData := rf.raData
    halt := dec.valid && decide (dec.instr = .hlt)
    commit := fault.isNone }

/-- The state at the end of the step (R137): all blocks change together, and a faulting step changes only `RUN`. -/
def blockNext (s : State) (w : Wires) : State :=
  { x := registerFileNext s.x { w.rfIn with wEn := w.rfIn.wEn && w.commit } w.wData
    pc := programCounterControl s.pc w.dec.nOps w.take w.rf.raData w.commit
    fl := flagsRegisterNext s.fl (w.flWe && w.commit) w.alu.lge
    run := match w.fault with
      | some c => .faulted c
      | none => if w.halt then .halted else s.run
    mem := s.mem
    out := if w.outValid then s.out ++ [w.outData] else s.out }

/-- One step of the network of blocks. -/
def blockStep (d : DontCare) (s : State) : Host.Outcome State Fault Refusal :=
  match s.run with
  | .halted => .fault .halted
  | .faulted c => .fault (.faulted c)
  | .running =>
    match fetchUnit d s with
    | .error c => .next { s with run := .faulted c }
    | .ok f => .next (blockNext s (executeWires d s f))

/-- The output port during a step (R141): the byte on `out_data` while `out_valid` pulses, `none` when it does not. -/
def outputPort (d : DontCare) (s : State) : Option Byte :=
  match s.run, fetchUnit d s with
  | .running, .ok f =>
    let w := executeWires d s f
    if w.outValid then some w.outData else none
  | _, _ => none

end Sys2Proof.Machine
end

