-- ==== Sys2Proof/WellFormed.lean ====
section
/-! DEFINITION. Which operand values the formats call legal (30_encoding.md R51, R57): a register index is 0..7, an
immediate is any byte. An instruction that is not well formed still decodes and still runs (assumption 21): it raises
InvalidRegister where it accesses the register file with the bad index, and a not-taken JEQ or JNE never does. -/

namespace Sys2Proof

/-- R51, R53: "legal values 0..7". -/
def legalRegister (a : Byte) : Bool := decide (a.toNat < Config.nregs)

/-- Every register-index operand of the instruction is legal. -/
def Instr.wellFormed : Instr → Bool
  | .hlt => true
  | .prn a => legalRegister a
  | .jmp a => legalRegister a
  | .jeq a => legalRegister a
  | .jne a => legalRegister a
  | .ldi a _ => legalRegister a
  | .mul a b => legalRegister a && legalRegister b
  | .cmp a b => legalRegister a && legalRegister b

end Sys2Proof
end

