-- ==== Sys2Proof/Safety.lean ====
section
/-! DEFINITION. What a legal state is, and how a run can end (40_execution_cycle.md R77, R78; 60_exceptions.md R167). -/

namespace Sys2Proof.Machine

/-! ### Legal states -/

/-- The flag triples that can be reached (10_state.md R18): all clear, or exactly one set. -/
def legalFlags (f : Flags) : Bool := decide (f.l.toNat + f.g.toNat + f.e.toNat ≤ 1)

/-- The recorded values that each kind of fault can have (60_exceptions.md R161), with no UnsupportedOperation: no
instruction raises it (R120). -/
def legalCause : FaultCause → Bool
  | .unknownOpcode ir => decide (decodeOpcode ir = none)
  | .outOfRange addr => decide (addr = 256)
  | .invalidRegister index => decide (index.toNat > 7)
  | .unsupportedOperation _ => false

/-- The run states that can be reached. -/
def legalRun : RunState → Bool
  | .running => true
  | .halted => true
  | .faulted c => legalCause c

/-- The invariant of the machine: memory in its canonical form, `PC` at most 256 (R15), legal flags (R18), a legal run
state (R161). -/
structure State.Inv (s : State) : Prop where
  memory : s.mem.wf = true
  counter : s.pc.toNat ≤ 256
  flags : legalFlags s.fl = true
  runState : legalRun s.run = true

/-! ### What an instruction accesses -/

/-- The bytes that an instruction presents to the register file's read ports (10_state.md R13, column "Reads"): JEQ
reads only when `FL.E = 1`, JNE only when `FL.E = 0`. -/
def registersRead : Instr → Flags → List Byte
  | .hlt, _ => []
  | .prn a, _ => [a]
  | .jmp a, _ => [a]
  | .jeq a, f => if f.e then [a] else []
  | .jne a, f => if f.e then [] else [a]
  | .ldi _ _, _ => []
  | .mul a b, _ => [a, b]
  | .cmp a b, _ => [a, b]

/-- The byte that an instruction presents to the register file's write port (R13, column "Writes"). -/
def registersWritten : Instr → List Byte
  | .hlt => []
  | .prn _ => []
  | .jmp _ => []
  | .jeq _ => []
  | .jne _ => []
  | .ldi a _ => [a]
  | .mul a _ => [a]
  | .cmp _ _ => []

/-- The bytes of `i` stand at `PC` and end inside the memory (20_memory.md R32). -/
def storedAtPc (i : Instr) (s : State) : Prop :=
  ∀ k (h : k < (encode i).length), s.pc.toNat + k < Config.memSize ∧ s.mem.read (s.pc.toNat + k) = (encode i)[k]

/-! ### Runs -/

/-- `k` steps from `s`, none of them refused or past the end of the run, lead to `t`. -/
def runsTo (k : Nat) (s t : State) : Prop := Host.Core.run Sys2Proof.core k s = .next t

/-- The run from `s` ends normally with the output `o` (R77). A faulted run is never one of these. -/
def haltsWith (s : State) (o : List Byte) : Prop := ∃ k t, runsTo k s t ∧ t.run = .halted ∧ t.out = o

/-- The run from `s` ends in the fault `c` (R77). -/
def faultsWith (s : State) (c : FaultCause) : Prop := ∃ k t, runsTo k s t ∧ t.run = .faulted c

/-- The run from `s` never ends (R78). -/
def runsForever (s : State) : Prop := ∀ k, ∃ t, runsTo k s t ∧ t.run = .running

end Sys2Proof.Machine
end

