-- ==== Sys2Proof/Certificates/Slice0/Obligations.lean ====
section
/-! DEFINITION. The statements for the provers. Each docstring names the rule or the section it formalises; where a
clause rests on one of the spec's own decisions (92_eei_decisions.md D1 to D25), which is no sentence of the source,
the docstring says which. -/

open Sys2Proof Sys2Proof.Machine

/-! ### Decoding and encoding -/

/-- R74: `decode(ir)` has nine results, depends on the byte alone, and is what the decoder block computes. -/
def Obligations.OpcodeByteHasOneOfNineResults : Prop :=
  (∀ ir : Byte, decodeOpcode ir =
    if ir.toNat = 1 then some .hlt else if ir.toNat = 71 then some .prn else if ir.toNat = 84 then some .jmp
    else if ir.toNat = 85 then some .jeq else if ir.toNat = 86 then some .jne else if ir.toNat = 130 then some .ldi
    else if ir.toNat = 162 then some .mul else if ir.toNat = 167 then some .cmp else none) ∧
  (∀ (ir : Byte) (bytes : List Byte), decodeOpcode ir = none → decode (ir :: bytes) = .unknownOpcode ir) ∧
  (∀ (d : DontCare) (ir : Byte), (instructionDecoder d ir).valid = (decodeOpcode ir).isSome ∧
    ∀ o, decodeOpcode ir = some o → (instructionDecoder d ir).instr = o)

/-- Words written out from 30_encoding.md section 3 (R51, R54) decode to the instructions they stand for, and bytes that
section 4 calls illegal do not. -/
def Obligations.EncodedWordsDecodeAsTheTableSays : Prop :=
  decode [0b00000001, 9] = .instr .hlt [9] ∧
  decode [0b01000111, 0b00000101] = .instr (.prn 5) [] ∧
  decode [0b01010100, 0b00000111] = .instr (.jmp 7) [] ∧
  decode [0b01010101, 0b11111111] = .instr (.jeq 255) [] ∧
  decode [0b01010110, 0b00000000] = .instr (.jne 0) [] ∧
  decode [0b10000010, 0b00000011, 0b11110000] = .instr (.ldi 3 240) [] ∧
  decode [0b10100010, 0b00000001, 0b00000010] = .instr (.mul 1 2) [] ∧
  decode [0b10100111, 0b00000010, 0b00000001] = .instr (.cmp 2 1) [] ∧
  decode [0b00000000, 0, 0] = .unknownOpcode 0 ∧
  decode [0b10100000, 0, 1] = .unknownOpcode 160 ∧
  decode [0b11000001] = .unknownOpcode 193

/-- Every instruction, with every value of every operand byte, decodes from its encoding, whatever follows. -/
def Obligations.DecodeOfEncodeIsTheInstruction : Prop :=
  ∀ (i : Instr) (rest : List Byte), decode (encode i ++ rest) = .instr i rest

/-- Each list of bytes that decodes is the encoding of what it decodes to, followed by the bytes left over: no two byte
sequences mean the same instruction. -/
def Obligations.DecodedBytesAreTheEncoding : Prop :=
  ∀ (bytes rest : List Byte) (i : Instr), decode bytes = .instr i rest → bytes = encode i ++ rest

/-- R50: `ir[7:6]` is the number of operand bytes; that count plus 1 is the length and the default advance of `PC`; the
value 3 belongs to no defined opcode. -/
def Obligations.OperandCountFieldGivesTheLength : Prop :=
  (∀ (ir : Byte) (bytes rest : List Byte) (i : Instr), decode (ir :: bytes) = .instr i rest →
    (encode i).length = ir.toNat / 64 + 1 ∧ (ir :: bytes).length = ir.toNat / 64 + 1 + rest.length ∧
    i.nOps.toNat = ir.toNat / 64 ∧ ir.toNat / 64 ≤ 2 ∧
    ∀ pc : Addr, pc.toNat ≤ 256 → (advance pc i.nOps).toNat = pc.toNat + (ir.toNat / 64 + 1)) ∧
  (∀ (ir : Byte) (bytes : List Byte), 192 ≤ ir.toNat → decode (ir :: bytes) = .unknownOpcode ir)

/-! ### The eight instructions: result, frame and completion. Each clause gives the WHOLE next state: a field that is not
named keeps its value, the memory among them. -/

/-- 41_halt_and_output.md, R90 (the advance of `PC` past a HLT is decision D10). -/
def Obligations.HltHaltsAndAdvancesByOne : Prop :=
  ∀ s : State, exec .hlt s = .next { s with run := .halted, pc := s.pc + 1 }

/-- 41_halt_and_output.md, R91 (that the value goes to the trace `OUT` is decision D14): PRN appends the register's byte
and changes no register; an index above 7 faults and prints nothing. -/
def Obligations.PrnAppendsTheRegister : Prop :=
  ∀ (a : Byte) (s : State),
    (∀ h : a.toNat < 8, exec (.prn a) s = .next { s with out := s.out ++ [s.x[a.toNat]], pc := s.pc + 2 }) ∧
    (8 ≤ a.toNat → exec (.prn a) s = .next { s with run := .faulted (.invalidRegister a) })

/-- R100: JMP's encoding, its target, its fault. -/
def Obligations.JmpGoesExactlyToTheRegister : Prop :=
  ∀ (a : Byte) (s : State),
    decode [0b01010100, a] = .instr (.jmp a) [] ∧
    (∀ h : a.toNat < 8, ∃ target : Addr, target.toNat = s.x[a.toNat].toNat ∧
      exec (.jmp a) s = .next { s with pc := target }) ∧
    (8 ≤ a.toNat → exec (.jmp a) s = .next { s with run := .faulted (.invalidRegister a) })

/-- 42_branches.md, R101 (that a not-taken JEQ checks no index is decision D11). -/
def Obligations.JeqIsTakenExactlyWhenEqual : Prop :=
  ∀ (a : Byte) (s : State),
    (s.fl.e = true → ∀ h : a.toNat < 8, ∃ target : Addr, target.toNat = s.x[a.toNat].toNat ∧
      exec (.jeq a) s = .next { s with pc := target }) ∧
    (s.fl.e = true → 8 ≤ a.toNat → exec (.jeq a) s = .next { s with run := .faulted (.invalidRegister a) }) ∧
    (s.fl.e = false → exec (.jeq a) s = .next { s with pc := s.pc + 2 })

/-- 42_branches.md, R102 (that a not-taken JNE checks no index is decision D11). -/
def Obligations.JneIsTakenExactlyWhenNotEqual : Prop :=
  ∀ (a : Byte) (s : State),
    (s.fl.e = false → ∀ h : a.toNat < 8, ∃ target : Addr, target.toNat = s.x[a.toNat].toNat ∧
      exec (.jne a) s = .next { s with pc := target }) ∧
    (s.fl.e = false → 8 ≤ a.toNat → exec (.jne a) s = .next { s with run := .faulted (.invalidRegister a) }) ∧
    (s.fl.e = true → exec (.jne a) s = .next { s with pc := s.pc + 2 })

/-- R110: LDI's encoding, the value it writes, its faults, and the operand fetch at the end of the memory. -/
def Obligations.LdiWritesTheImmediate : Prop :=
  ∀ (a imm : Byte) (s : State),
    decode [0b10000010, a, imm] = .instr (.ldi a imm) [] ∧
    (∀ h : a.toNat < 8, exec (.ldi a imm) s = .next { s with x := s.x.set a.toNat imm, pc := s.pc + 3 }) ∧
    (8 ≤ a.toNat → exec (.ldi a imm) s = .next { s with run := .faulted (.invalidRegister a) }) ∧
    (s.run = .running → s.pc.toNat = 254 ∨ s.pc.toNat = 255 → s.mem.read s.pc.toNat = 0b10000010 →
      step s = .next { s with run := .faulted (.outOfRange 256) })

/-- 44_alu.md, R116 (the order of the two index checks is decision D12, log entry 10): MUL's encoding, the low byte of
the product, its faults in order. -/
def Obligations.MulWritesTheLowByteOfTheProduct : Prop :=
  ∀ (a b : Byte) (s : State),
    decode [0b10100010, a, b] = .instr (.mul a b) [] ∧
    (∀ (_ : a.toNat < 8) (_ : b.toNat < 8), ∃ v : Byte, v.toNat = (s.x[a.toNat].toNat * s.x[b.toNat].toNat) % 256 ∧
      exec (.mul a b) s = .next { s with x := s.x.set a.toNat v, pc := s.pc + 3 }) ∧
    (8 ≤ a.toNat → exec (.mul a b) s = .next { s with run := .faulted (.invalidRegister a) }) ∧
    (a.toNat < 8 → 8 ≤ b.toNat → exec (.mul a b) s = .next { s with run := .faulted (.invalidRegister b) })

/-- 44_alu.md, R117 (the order of the two index checks is decision D12, log entry 10): CMP's encoding, the three flags,
its faults in order. -/
def Obligations.CmpSetsExactlyOneFlag : Prop :=
  ∀ (a b : Byte) (s : State),
    decode [0b10100111, a, b] = .instr (.cmp a b) [] ∧
    (∀ (_ : a.toNat < 8) (_ : b.toNat < 8), ∃ f : Flags,
      (f.l = true ↔ s.x[a.toNat].toNat < s.x[b.toNat].toNat) ∧
      (f.g = true ↔ s.x[a.toNat].toNat > s.x[b.toNat].toNat) ∧
      (f.e = true ↔ s.x[a.toNat].toNat = s.x[b.toNat].toNat) ∧
      f.l.toNat + f.g.toNat + f.e.toNat = 1 ∧
      exec (.cmp a b) s = .next { s with fl := f, pc := s.pc + 3 }) ∧
    (8 ≤ a.toNat → exec (.cmp a b) s = .next { s with run := .faulted (.invalidRegister a) }) ∧
    (a.toNat < 8 → 8 ≤ b.toNat → exec (.cmp a b) s = .next { s with run := .faulted (.invalidRegister b) })

/-- R51, R193: an instruction whose register operands are all legal completes from every state, without a fault; HLT
alone changes `RUN`. -/
def Obligations.WellFormedInstructionsComplete : Prop :=
  ∀ (i : Instr) (s : State), i.wellFormed = true →
    ∃ t, exec i s = .next t ∧ t.run = if i = .hlt then .halted else s.run

/-- R91's sentence: "`LDI r, v` followed by `PRN r` outputs v exactly, for any valid register index and representable
immediate." (`OUT` as a trace is decision D14.) -/
def Obligations.LdiThenPrnPrintsTheImmediate : Prop :=
  ∀ (r v : Byte) (s : State), r.toNat < 8 →
    ∃ t u, exec (.ldi r v) s = .next t ∧ exec (.prn r) t = .next u ∧ u.out = s.out ++ [v]

/-! ### Whole-machine rules over the instructions -/

/-- 10_state.md section 1, R13, both columns of its table: a register that changes is the one the table lists as written,
and the result depends on no register but those the table lists as read (that JEQ and JNE read theirs only when they are
taken is decision D11, log entry 9). -/
def Obligations.RegistersAreReadAndWrittenAsTheTableSays : Prop :=
  (∀ (i : Instr) (s t : State) (r : Fin 8), exec i s = .next t → t.x[r] ≠ s.x[r] →
    (∃ a imm, i = .ldi a imm ∧ a.toNat = r) ∨ (∃ a b, i = .mul a b ∧ a.toNat = r)) ∧
  (∀ (i : Instr) (s : State) (y : Vector Byte 8),
    (∀ r : Fin 8, BitVec.ofNat 8 r ∈ registersRead i s.fl → y[r] = s.x[r]) →
    ∃ t u, exec i s = .next t ∧ exec i { s with x := y } = .next u ∧
      u.pc = t.pc ∧ u.fl = t.fl ∧ u.run = t.run ∧ u.mem = t.mem ∧ u.out = t.out ∧
      ∀ r : Fin 8, u.x[r] = t.x[r] ∨ (u.x[r] = y[r] ∧ t.x[r] = s.x[r]))

/-- R17: the flags are changed only by CMP and read only by JEQ and JNE, which read E alone: nothing in the next state
depends on the old flags otherwise, the flags themselves being either written alike or kept. -/
def Obligations.FlagsAreWrittenByCmpAndReadByJeqAndJne : Prop :=
  (∀ (i : Instr) (s t : State), exec i s = .next t → t.fl ≠ s.fl → ∃ a b, i = .cmp a b) ∧
  (∀ (i : Instr) (s : State) (f : Flags), ((∃ a, i = .jeq a) ∨ (∃ a, i = .jne a) → f.e = s.fl.e) →
    ∃ t u, exec i s = .next t ∧ exec i { s with fl := f } = .next u ∧
      u.x = t.x ∧ u.pc = t.pc ∧ u.run = t.run ∧ u.mem = t.mem ∧ u.out = t.out ∧
      (u.fl = t.fl ∨ (u.fl = f ∧ t.fl = s.fl)))

/-- R35: no instruction reads a data byte from memory (the result is the same over any other memory), and none writes one
(every byte reads as before, after the instruction and after the whole step). -/
def Obligations.NoInstructionLoadsOrStores : Prop :=
  (∀ (i : Instr) (s : State) (m : Memory), ∃ t, exec i s = .next t ∧ t.mem = s.mem ∧
    exec i { s with mem := m } = .next { t with mem := m }) ∧
  (∀ (s t : State), step s = .next t → ∀ a, t.mem.read a = s.mem.read a)

/-- 10_state.md section 5, R24 (the trace is decision D14): `OUT` is append-only, at most one byte a time and only by
PRN, and no instruction reads it. -/
def Obligations.OutputIsAppendOnlyAndNeverRead : Prop :=
  ∀ (i : Instr) (s : State), ∃ t bytes, exec i s = .next t ∧ t.out = s.out ++ bytes ∧ bytes.length ≤ 1 ∧
    (bytes ≠ [] → ∃ a, i = .prn a) ∧
    ∀ o : List Byte, exec i { s with out := o } = .next { t with out := o ++ bytes }

/-- 10_state.md section 4, R20, with section 1, R12 and R13, and 60_exceptions.md section 1, R164 (the FAULTED state is
decision D3, log entry 5; that a JEQ or JNE that is not taken presents no index, so never faults on it, is decision D11,
log entry 9): an instruction leaves `RUN` alone, or is HLT and halts, or faults on an index above 7 that it presents to
the register file, and then changes nothing else. -/
def Obligations.RunChangesOnlyByHltOrByAFault : Prop :=
  ∀ (i : Instr) (s t : State), exec i s = .next t →
    (t.run = s.run ∧ i ≠ .hlt) ∨ (i = .hlt ∧ t.run = .halted) ∨
    ∃ r, r ∈ registersRead i s.fl ++ registersWritten i ∧ 7 < r.toNat ∧
      t = { s with run := .faulted (.invalidRegister r) }

/-! ### The step -/

/-- 40_execution_cycle.md section 2, R71: when the bytes at `PC` decode to an instruction, well formed or not, a step of
the running machine is that instruction. -/
def Obligations.StepRunsTheDecodedInstruction : Prop :=
  ∀ (s : State) (i : Instr) (rest : List Byte), s.run = .running → decode (fetchWindow s) = .instr i rest →
    step s = exec i s

/-- R32: the opcode is the byte at `PC`, the first operand the byte at `PC + 1`, the second at `PC + 2`; a step runs the
instruction so stored, up to the last byte of the memory. -/
def Obligations.StepRunsTheInstructionStoredAtPc : Prop :=
  ∀ (s : State) (i : Instr), s.run = .running →
    (∀ k (h : k < (i.opcode.byte :: i.operands).length), s.pc.toNat + k ≤ 255 ∧
      s.mem.read (s.pc.toNat + k) = (i.opcode.byte :: i.operands)[k]) →
    step s = exec i s

/-- The fixed name `withFetchWord` (assumption 20): a word that the decoder accepts, stored where the next step fetches,
is what the next step runs. -/
def Obligations.StepRunsTheWordStoredByWithFetchWord : Prop :=
  ∀ (s : State) (nbits w : Nat) (i : Instr), s.run = .running → s.mem.wf = true → s.pc.toNat ≤ 253 →
    decodeTableWord nbits w = some i → step (s.withFetchWord nbits w) = exec i (s.withFetchWord nbits w)

/-- 60_exceptions.md sections 1 and 2, R163, R166 (the order of the checks is decisions D5 and D6, the value 256 of `PC`
decision D2): the faults of the fetch, in order. -/
def Obligations.FetchFaultsInTheOrderOfTheChecks : Prop :=
  ∀ s : State, s.run = .running →
    (255 < s.pc.toNat → step s = .next { s with run := .faulted (.outOfRange s.pc) }) ∧
    (s.pc.toNat ≤ 255 → decodeOpcode (s.mem.read s.pc.toNat) = none →
      step s = .next { s with run := .faulted (.unknownOpcode (s.mem.read s.pc.toNat)) }) ∧
    (s.pc.toNat = 255 → ∀ o, decodeOpcode (s.mem.read 255) = some o → o ≠ .hlt →
      step s = .next { s with run := .faulted (.outOfRange 256) }) ∧
    (s.pc.toNat = 254 → ∀ o, decodeOpcode (s.mem.read 254) = some o → o = .ldi ∨ o = .mul ∨ o = .cmp →
      step s = .next { s with run := .faulted (.outOfRange 256) })

/-- 70_reset_and_hazards.md section 2, R193: a step of the running machine ends without a fault exactly when the bytes at
`PC` are those of an instruction that ends inside the memory and whose accessed register operands are 0..7. -/
def Obligations.StepCompletesExactlyWhenTheImageIsSound : Prop :=
  ∀ s : State, s.run = .running →
    ((∃ t, step s = .next t ∧ ∀ c, t.run ≠ .faulted c) ↔
      ∃ i, storedAtPc i s ∧ ∀ r, r ∈ registersRead i s.fl ++ registersWritten i → r.toNat < 8)

/-- R72: after a step that does not fault, `PC` is exactly the target when a branch is taken, and the old `PC` plus the
operand count plus 1 otherwise. -/
def Obligations.PcIsTheTargetOrTheSequentialSuccessor : Prop :=
  ∀ s t : State, step s = .next t → (∀ c, t.run ≠ .faulted c) →
    (∃ (a : Byte) (_ : a.toNat < 8),
      (storedAtPc (.jmp a) s ∨ (storedAtPc (.jeq a) s ∧ s.fl.e = true) ∨ (storedAtPc (.jne a) s ∧ s.fl.e = false)) ∧
      t.pc.toNat = s.x[a.toNat].toNat) ∨
    (∃ i, storedAtPc i s ∧ (∀ a, i ≠ .jmp a) ∧ (∀ a, i = .jeq a → s.fl.e = false) ∧
      (∀ a, i = .jne a → s.fl.e = true) ∧ t.pc.toNat = s.pc.toNat + (s.mem.read s.pc.toNat).toNat / 64 + 1)

/-- 60_exceptions.md section 2, R165 (decision D3): a step that faults changes `RUN` and nothing else. -/
def Obligations.AFaultingStepChangesOnlyRun : Prop :=
  ∀ (s t : State) (c : FaultCause), step s = .next t → t.run = .faulted c → t = { s with run := .faulted c }

/-- 40_execution_cycle.md section 1, R70 (decisions D3, D20): a step is taken if and only if `RUN = RUNNING`. -/
def Obligations.AStepIsTakenExactlyWhileRunning : Prop :=
  ∀ s : State, (s.run = .running ↔ ∃ t, step s = .next t) ∧ (s.run = .halted → step s = .fault .halted) ∧
    ∀ c, s.run = .faulted c → step s = .fault (.faulted c)

/-- 20_memory.md section 3, R34 (decision D6): a step depends on the bytes of the instruction at `PC`, as many as it has,
and on no other byte of the memory. -/
def Obligations.StepReadsOnlyTheInstructionsOwnBytes : Prop :=
  ∀ (s t : State) (m : Memory), step s = .next t → m.read s.pc.toNat = s.mem.read s.pc.toNat →
    (∀ i rest, decode (fetchWindow s) = .instr i rest →
      ∀ k, k < (encode i).length → m.read (s.pc.toNat + k) = s.mem.read (s.pc.toNat + k)) →
    step { s with mem := m } = .next { t with mem := m }

/-- 44_alu.md section 4, R120 (decisions D16, D24): no step enters FAULTED(UnsupportedOperation). -/
def Obligations.UnsupportedOperationIsUnreachable : Prop :=
  ∀ (s t : State) (tag : AluTag), step s = .next t → t.run ≠ .faulted (.unsupportedOperation tag)

/-- The invariant (R15, R18, R161, and the memory's canonical form) is kept by every step. The flag triples of R18 and
the values of R15 are the spec's own derivations; the canonical form is the model's. -/
def Obligations.EveryStepKeepsTheInvariant : Prop := ∀ s t : State, s.Inv → step s = .next t → t.Inv

/-! ### The ALU block and the blocks -/

/-- 44_alu.md section 4, R119 (that no byte selects it is decision D13): the ALU's ADD wraps modulo 256, writes the first
register and no flag, checks its indices in order, and the decoder never selects it. -/
def Obligations.AluAddWrapsAndNoOpcodeSelectsIt : Prop :=
  (∀ (a b : Byte) (s : State),
    (∀ (ha : a.toNat < 8) (_ : b.toNat < 8), ∃ v : Byte,
      v.toNat = (s.x[a.toNat].toNat + s.x[b.toNat].toNat) % 256 ∧
      aluApply Config.aluAdd a b s = .ok { regWrite := some (⟨a.toNat, ha⟩, v) }) ∧
    (8 ≤ a.toNat → aluApply Config.aluAdd a b s = .error (.invalidRegister a)) ∧
    (a.toNat < 8 → 8 ≤ b.toNat → aluApply Config.aluAdd a b s = .error (.invalidRegister b))) ∧
  (∀ (d : DontCare) (ir : Byte), (instructionDecoder d ir).valid = true → (instructionDecoder d ir).isAlu = true →
    (instructionDecoder d ir).aluOp ≠ Config.aluAdd)

/-- 44_alu.md section 4, R120, and 50_blocks_and_interfaces.md section 4 (the coding of the tag is decision D16): a tag
that is none of ADD, MUL and CMP raises UnsupportedOperation once both indices are legal. -/
def Obligations.AluRefusesATagWithoutAnOperation : Prop :=
  ∀ (tag : AluTag) (a b : Byte) (s : State), a.toNat < 8 → b.toNat < 8 →
    (aluApply tag a b s = .error (.unsupportedOperation tag) ↔
      tag ≠ Config.aluAdd ∧ tag ≠ Config.aluMul ∧ tag ≠ Config.aluCmp)

/-- 50_blocks_and_interfaces.md (its ports are decision D15): the network of the six blocks computes the step of
40_execution_cycle.md, whatever the don't-care outputs are. -/
def Obligations.BlockNetworkComputesTheStep : Prop := ∀ (d : DontCare) (s : State), blockStep d s = step s

/-- 50_blocks_and_interfaces.md section 8, R141 (decisions D14, D15): the bytes on the output port are exactly what a
step appends to `OUT`. -/
def Obligations.OutputPortCarriesWhatOutGains : Prop :=
  ∀ (d : DontCare) (s t : State), step s = .next t → t.out = s.out ++ (outputPort d s).toList

/-- 50_blocks_and_interfaces.md section 8, R142, and 60_exceptions.md R161 (the codes are decision D4): exactly one of the
three status bits is set, the kind and the value show a fault and are 0 otherwise. -/
def Obligations.StatusPortShowsTheRunState : Prop :=
  ∀ s : State,
    (statusPort s).running.toNat + (statusPort s).halted.toNat + (statusPort s).faulted.toNat = 1 ∧
    ((statusPort s).running = true ↔ s.run = .running) ∧ ((statusPort s).halted = true ↔ s.run = .halted) ∧
    ((statusPort s).faulted = false → (statusPort s).faultKind = 0 ∧ (statusPort s).faultInfo = 0) ∧
    (∀ b, s.run = .faulted (.unknownOpcode b) →
      (statusPort s).faultKind = 1 ∧ (statusPort s).faultInfo.toNat = b.toNat) ∧
    (∀ addr, s.run = .faulted (.outOfRange addr) →
      (statusPort s).faultKind = 2 ∧ (statusPort s).faultInfo.toNat = addr.toNat) ∧
    (∀ r, s.run = .faulted (.invalidRegister r) →
      (statusPort s).faultKind = 3 ∧ (statusPort s).faultInfo.toNat = r.toNat) ∧
    (∀ tag, s.run = .faulted (.unsupportedOperation tag) →
      (statusPort s).faultKind = 4 ∧ (statusPort s).faultInfo.toNat = tag.toNat)

/-- 10_state.md section 3, R19 (decision D9, the model's log entry 22): the packed flags of the read-out. -/
def Obligations.PackedFlagsHaveLGEInBitsTwoOneZero : Prop :=
  ∀ s : State, (readOut s).fl.getLsbD 2 = s.fl.l ∧ (readOut s).fl.getLsbD 1 = s.fl.g ∧
    (readOut s).fl.getLsbD 0 = s.fl.e ∧ (readOut s).fl.toNat < 8

/-! ### The memory -/

/-- R30: the memory's read and write, their range check, the one cell a write changes, and the one address out of range
that the core ever presents. -/
def Obligations.MemoryReadsBackWhatIsWrittenAndChecksItsRange : Prop :=
  (∀ (s : State) (addr : Addr) (v : Byte), s.mem.wf = true → addr.toNat ≤ 255 →
    memRead s addr = .ok (s.mem.read addr.toNat) ∧
    ∃ s', memWrite s addr v = .ok s' ∧ s' = { s with mem := s'.mem } ∧ memRead s' addr = .ok v ∧
      ∀ other, other ≠ addr → memRead s' other = memRead s other) ∧
  (∀ (s : State) (addr : Addr) (v : Byte), 255 < addr.toNat →
    memRead s addr = .error (.outOfRange addr) ∧ memWrite s addr v = .error (.outOfRange addr)) ∧
  (∀ (s t : State) (addr : Addr), s.pc.toNat ≤ 256 → step s = .next t → t.run = .faulted (.outOfRange addr) →
    addr.toNat = 256)

/-- The canonical form of the memory (the model's own, assumption 14): two memories in it that read alike at every
address are the same data. -/
def Obligations.MemoriesThatReadAlikeAreEqual : Prop :=
  ∀ m m' : Memory, m.wf = true → m'.wf = true → (∀ a, a < 256 → m.read a = m'.read a) → m = m'

/-! ### Reset, launch and runs -/

/-- 10_state.md section 7, R26 (the registers' 0 is decision D7 and the flags' 0 decision D8, log entries 1 and 2): the
state after reset, over empty memory. -/
def Obligations.ResetLeavesTheStatedValues : Prop :=
  State.reset.pc.toNat = 0 ∧ State.reset.run = .running ∧ (∀ a, State.reset.mem.read a = 0) ∧
  (∀ r : Fin 8, State.reset.x[r] = 0) ∧ State.reset.fl = { l := false, g := false, e := false } ∧
  State.reset.out = []

/-- The invariant holds after reset. -/
def Obligations.ResetMeetsTheInvariant : Prop := State.reset.Inv

/-- 70_reset_and_hazards.md section 1, R191 (the limit of 256 bytes is decision D17, log entry 15; the invariant's
canonical form of the memory is the model's, log entry 14): zeroed memory, the image from address 0 upward, and the first
step fetches at address 0. -/
def Obligations.LaunchPlacesTheImageFromAddressZero : Prop :=
  ∀ image : List Byte, image.length ≤ 256 → ∃ s, launch image = .next s ∧
    (∀ a (h : a < image.length), s.mem.read a = image[a]) ∧ (∀ a, image.length ≤ a → s.mem.read a = 0) ∧
    s.pc.toNat = 0 ∧ s.run = .running ∧ (fetchWindow s).head? = some (s.mem.read 0) ∧ s.Inv

/-- 20_memory.md section 4, R38 (decision D17): a launch with a longer image is refused. -/
def Obligations.AnImageLongerThanTheMemoryIsRefused : Prop :=
  ∀ image : List Byte, 256 < image.length → launch image = .refused (.imageTooLong image.length)

/-- 70_reset_and_hazards.md section 2, R194: on an empty image the first step enters FAULTED(UnknownOpcode, 0) and
changes nothing else. -/
def Obligations.TheEmptyImageFaultsAtOnce : Prop :=
  ∃ s, launch [] = .next s ∧ step s = .next { s with run := .faulted (.unknownOpcode 0) }

/-- 70_reset_and_hazards.md section 1, R192 (decision D21): a reset at any point of a run gives back the launched state,
memory and all, so a second run of the same image is the first. -/
def Obligations.ResetDuringARunGivesTheLaunchedStateBack : Prop :=
  ∀ (image : List Byte) (s t : State) (k : Nat), launch image = .next s → runsTo k s t → coreReset t = s

/-- 40_execution_cycle.md section 3, R76, and 10_state.md R23, R24: along a run the memory does not change and `OUT` only
grows, by at most one byte a step. -/
def Obligations.ARunKeepsTheMemoryAndOnlyExtendsOut : Prop :=
  ∀ (k : Nat) (s t : State), runsTo k s t →
    t.mem = s.mem ∧ ∃ bytes, bytes.length ≤ k ∧ t.out = s.out ++ bytes

/-- 40_execution_cycle.md section 3, R77, and 60_exceptions.md R167 (decision D3): a run that halts ends with one output,
and is neither a run that faults nor one that never ends. -/
def Obligations.AHaltedRunNeitherFaultsNorGoesOn : Prop :=
  ∀ (s : State) (o : List Byte), haltsWith s o →
    (∀ o', haltsWith s o' → o' = o) ∧ (∀ c, ¬ faultsWith s c) ∧ ¬ runsForever s

/-- 40_execution_cycle.md section 3, R77, R78, and 44_alu.md R120: from a running state that meets the invariant a run
halts, or faults with a cause that is legal there, or never ends. -/
def Obligations.EveryRunHaltsOrFaultsOrNeverEnds : Prop :=
  ∀ s : State, s.Inv → s.run = .running →
    (∃ o, haltsWith s o) ∨ (∃ c, legalCause c = true ∧ faultsWith s c) ∨ runsForever s

/-- 40_execution_cycle.md section 3, R77 (the final `PC` is decision D10): when a run of at least one step has ended in
HALTED, its last step ran a HLT, and `PC` is that HLT's address plus 1. -/
def Obligations.AHaltedRunEndsJustAfterAHlt : Prop :=
  ∀ (k : Nat) (s t : State), runsTo (k + 1) s t → t.run = .halted →
    ∃ u, runsTo k s u ∧ storedAtPc .hlt u ∧ t.pc.toNat = u.pc.toNat + 1 ∧ t.out = u.out

/-- 40_execution_cycle.md section 3, R78 (the spec's own derivation): in a run that never ends the registers, `PC` and
the flags are eventually periodic. -/
def Obligations.AnEndlessRunIsEventuallyPeriodic : Prop :=
  ∀ s : State, runsForever s → ∃ n p, 0 < p ∧ ∀ k t u, n ≤ k → runsTo k s t → runsTo (k + p) s u →
    u.x = t.x ∧ u.pc = t.pc ∧ u.fl = t.fl

/-! ### The fetch port, and the rest of the launched state -/

/-- 50_blocks_and_interfaces.md section 8, R138, and 20_memory.md section 3, R34 (how many bytes are read is decisions D5
and D6, log entry 7, the port is decision D15): the reads that a step requests from the memory, in order and no others:
the opcode, then as many operand bytes as `ir[7:6]` says, up to the first address that fails. -/
def Obligations.FetchPortRequestsExactlyTheReadsOfTheStep : Prop :=
  ∀ (d : DontCare) (s : State),
    (s.run ≠ .running → requestedAddresses d s = []) ∧
    (s.run = .running → 255 < s.pc.toNat → requestedAddresses d s = [s.pc]) ∧
    (s.run = .running → s.pc.toNat ≤ 255 → decodeOpcode (s.mem.read s.pc.toNat) = none →
      requestedAddresses d s = [s.pc]) ∧
    (s.run = .running → s.pc.toNat ≤ 255 → ∀ o, decodeOpcode (s.mem.read s.pc.toNat) = some o →
      (requestedAddresses d s).map BitVec.toNat =
        List.range' s.pc.toNat (min ((s.mem.read s.pc.toNat).toNat / 64 + 1) (257 - s.pc.toNat)))

/-- 50_blocks_and_interfaces.md section 8, R138 (the port is decision D15, the value 256 of `PC` decision D2, log entry 4;
that an idle port presents one of these values is log entry 19): `mem_addr` is 0 to 256, `mem_oor` says that it is above
255, `mem_rdata` is the byte of every address in range, requested or not, and a step raises OutOfRange(`mem_addr`)
exactly when it requests an address that fails. -/
def Obligations.FetchPortCarriesTheByteOrTheRangeFault : Prop :=
  ∀ (d : DontCare) (s : State),
    (∀ p, p = (fetchUses d s).opcode ∨ p = (fetchUses d s).opa ∨ p = (fetchUses d s).opb →
      (s.pc.toNat ≤ 256 → p.addr.toNat ≤ 256) ∧ (p.oor = true ↔ 255 < p.addr.toNat) ∧
      (p.addr.toNat ≤ 255 → p.rdata = s.mem.read p.addr.toNat)) ∧
    (s.run = .running → ∀ addr : Addr,
      step s = .next { s with run := .faulted (.outOfRange addr) } ↔
        addr ∈ requestedAddresses d s ∧ 255 < addr.toNat)

/-- 70_reset_and_hazards.md section 1, R190, and 10_state.md section 7, R26 (the registers' 0 is decision D7 and the flags'
0 decision D8, log entries 1 and 2): what a launch leaves beside the memory, `PC` and `RUN`. -/
def Obligations.LaunchLeavesRegistersFlagsAndOutputAtReset : Prop :=
  ∀ (image : List Byte) (s : State), launch image = .next s →
    (∀ r : Fin 8, s.x[r] = 0) ∧ s.fl = { l := false, g := false, e := false } ∧ s.out = []

/-- 50_blocks_and_interfaces.md section 3, R132 (the ports are decision D15, the order of the ports in `bad_idx_val` decision
D12, log entry 10): the register file's ports. A read port gives the register of a legal index, `bad_idx` says that a used
port has an index above 7 and `bad_idx_val` which one. At the end of a step no register has changed when `bad_idx` is set,
which suppresses every write. When it is not, the register of a requested write holds the value written, and every other
register is unchanged. -/
def Obligations.RegisterFileReadsWritesAndReportsTheFirstBadIndex : Prop :=
  ∀ (d : DontCare) (x : Vector Byte 8) (i : RegFileIn),
    (∀ h : i.raIdx.toNat < 8, (registerFile d x i).raData = x[i.raIdx.toNat]) ∧
    (∀ h : i.rbIdx.toNat < 8, (registerFile d x i).rbData = x[i.rbIdx.toNat]) ∧
    ((registerFile d x i).badIdx = true ↔ (i.raEn = true ∧ 7 < i.raIdx.toNat) ∨
      (i.rbEn = true ∧ 7 < i.rbIdx.toNat) ∨ (i.wEn = true ∧ 7 < i.wIdx.toNat)) ∧
    (registerFile d x i).badIdxVal = (if i.raEn = true ∧ 7 < i.raIdx.toNat then i.raIdx
      else if i.rbEn = true ∧ 7 < i.rbIdx.toNat then i.rbIdx else i.wIdx) ∧
    ∀ wData : Byte,
      ((registerFile d x i).badIdx = true → registerFileNext x i wData = x) ∧
      ((registerFile d x i).badIdx = false → ∀ r : Fin 8, (registerFileNext x i wData)[r] =
        if i.wEn = true ∧ i.wIdx.toNat = r then wData else x[r])
end

