-- ==== Sys2Proof/Laws/Decode.lean ====
section
/-! SUPPORT. The opcode map's laws. -/

namespace Sys2Proof

/-- The map is one to one: a byte decodes to a row exactly when it is that row's byte. -/
theorem decodeOpcode_eq_some_iff (ir : Byte) (o : Opcode) : decodeOpcode ir = some o ↔ ir = o.byte := by
  constructor
  · intro h
    have := List.find?_some h
    exact (beq_iff_eq.mp this).symm
  · rintro rfl
    cases o <;> decide

@[simp] theorem decodeOpcode_byte (o : Opcode) : decodeOpcode o.byte = some o :=
  (decodeOpcode_eq_some_iff _ _).mpr rfl

/-- The operand count field of each row (R50, R54). -/
theorem operandCount_byte (o : Opcode) : operandCount o.byte =
    match o with
    | .hlt => 0
    | .prn => 1
    | .jmp => 1
    | .jeq => 1
    | .jne => 1
    | .ldi => 2
    | .mul => 2
    | .cmp => 2 := by cases o <;> decide

@[simp] theorem nOps_hlt : Instr.hlt.nOps = 0#2 := operandCount_byte .hlt
@[simp] theorem nOps_prn (a : Byte) : (Instr.prn a).nOps = 1#2 := operandCount_byte .prn
@[simp] theorem nOps_jmp (a : Byte) : (Instr.jmp a).nOps = 1#2 := operandCount_byte .jmp
@[simp] theorem nOps_jeq (a : Byte) : (Instr.jeq a).nOps = 1#2 := operandCount_byte .jeq
@[simp] theorem nOps_jne (a : Byte) : (Instr.jne a).nOps = 1#2 := operandCount_byte .jne
@[simp] theorem nOps_ldi (a imm : Byte) : (Instr.ldi a imm).nOps = 2#2 := operandCount_byte .ldi
@[simp] theorem nOps_mul (a b : Byte) : (Instr.mul a b).nOps = 2#2 := operandCount_byte .mul
@[simp] theorem nOps_cmp (a b : Byte) : (Instr.cmp a b).nOps = 2#2 := operandCount_byte .cmp

/-- The operand count field is the number of operand bytes (R50). -/
theorem nOps_toNat (i : Instr) : i.nOps.toNat = i.operands.length := by cases i <;> simp [Instr.operands]

/-- The operands of a defined opcode decode exactly when there are as many bytes as its count field says; otherwise the
first missing one is named. -/
theorem decodeOperands_cases (o : Opcode) (tail : List Byte) :
    ((operandCount o.byte).toNat ≤ tail.length ∧ ∃ i rest, decodeOperands o tail = .instr i rest) ∨
    (tail.length < (operandCount o.byte).toNat ∧ decodeOperands o tail = .missingOperand (tail.length + 1)) := by
  rw [operandCount_byte]
  match tail with
  | [] => cases o <;> simp [decodeOperands, decodeF1, decodeF2]
  | [_] => cases o <;> simp [decodeOperands, decodeF1, decodeF2]
  | _ :: _ :: _ => cases o <;> simp [decodeOperands, decodeF1, decodeF2]

/-- What the decoder answers an instruction on: a defined opcode and that opcode's operands. -/
theorem decode_instr_cases {bytes rest : List Byte} {i : Instr} (h : decode bytes = .instr i rest) :
    ∃ o tail, bytes = o.byte :: tail ∧ decodeOperands o tail = .instr i rest := by
  cases bytes with
  | nil => cases h
  | cons ir tail =>
    rw [decode] at h
    cases ho : decodeOpcode ir with
    | none => rw [ho] at h; cases h
    | some o =>
      rw [ho] at h
      exact ⟨o, tail, by rw [(decodeOpcode_eq_some_iff ir o).mp ho], h⟩

end Sys2Proof
end

