-- ==== Sys2Proof/Laws/State.lean ====
section
/-! SUPPORT. What each update of the state leaves in each field, all true by unfolding, so that no later proof unfolds a
record update. -/

namespace Sys2Proof.Machine

/-! ### The sizes (R5) -/

@[simp] theorem memSize_eq : Config.memSize = 256 := rfl
@[simp] theorem nregs_eq : Config.nregs = 8 := rfl

/-! ### raise (R165) -/

@[simp] theorem raise_x (c : FaultCause) (s : State) : (raise c s).x = s.x := rfl
@[simp] theorem raise_pc (c : FaultCause) (s : State) : (raise c s).pc = s.pc := rfl
@[simp] theorem raise_fl (c : FaultCause) (s : State) : (raise c s).fl = s.fl := rfl
@[simp] theorem raise_run (c : FaultCause) (s : State) : (raise c s).run = .faulted c := rfl
@[simp] theorem raise_mem (c : FaultCause) (s : State) : (raise c s).mem = s.mem := rfl
@[simp] theorem raise_out (c : FaultCause) (s : State) : (raise c s).out = s.out := rfl

/-! ### commit (R71 step 6) -/

@[simp] theorem commit_x (n : BitVec 2) (e : Effect) (s : State) : (commit n e s).x = e.regs s.x := rfl
@[simp] theorem commit_pc (n : BitVec 2) (e : Effect) (s : State) : (commit n e s).pc = e.nextPc n s.pc := rfl
@[simp] theorem commit_fl (n : BitVec 2) (e : Effect) (s : State) : (commit n e s).fl = e.flWrite.getD s.fl := rfl
@[simp] theorem commit_run (n : BitVec 2) (e : Effect) (s : State) :
    (commit n e s).run = if e.halt then .halted else s.run := rfl
@[simp] theorem commit_mem (n : BitVec 2) (e : Effect) (s : State) : (commit n e s).mem = s.mem := rfl
@[simp] theorem commit_out (n : BitVec 2) (e : Effect) (s : State) :
    (commit n e s).out = s.out ++ e.outByte.toList := rfl

/-- A register after an effect: what it was, or the value the effect writes to that very register. -/
theorem regs_getElem (e : Effect) (x : Vector Byte 8) (r : Fin 8) :
    (e.regs x)[r] = x[r] ∨ ∃ v, e.regWrite = some (r, v) ∧ (e.regs x)[r] = v := by
  obtain ⟨w, _, _, _, _⟩ := e
  cases w with
  | none => exact .inl rfl
  | some p =>
    obtain ⟨i, v⟩ := p
    by_cases h : i = r
    · exact .inr ⟨v, by rw [h], by simp [Effect.regs, h]⟩
    · exact .inl (Vector.getElem_set_ne i.isLt r.isLt (fun g => h (Fin.ext g)))

/-- The shapes of effect that the Operations yield (R75), as states. -/
@[simp] theorem commit_none (n : BitVec 2) (s : State) :
    commit n {} s = { s with pc := advance s.pc n } := by simp [commit, Effect.regs, Effect.nextPc]

@[simp] theorem commit_halt (n : BitVec 2) (s : State) :
    commit n { halt := true } s = { s with run := .halted, pc := advance s.pc n } := by
  simp [commit, Effect.regs, Effect.nextPc]

@[simp] theorem commit_outByte (n : BitVec 2) (v : Byte) (s : State) :
    commit n { outByte := some v } s = { s with out := s.out ++ [v], pc := advance s.pc n } := by
  simp [commit, Effect.regs, Effect.nextPc]

@[simp] theorem commit_target (n : BitVec 2) (t : Byte) (s : State) :
    commit n { target := some t } s = { s with pc := t.setWidth 9 } := by
  simp [commit, Effect.regs, Effect.nextPc]

@[simp] theorem commit_regWrite (n : BitVec 2) (i : Fin 8) (v : Byte) (s : State) :
    commit n { regWrite := some (i, v) } s = { s with x := s.x.set i v, pc := advance s.pc n } := by
  simp [commit, Effect.regs, Effect.nextPc]

@[simp] theorem commit_flWrite (n : BitVec 2) (f : Flags) (s : State) :
    commit n { flWrite := some f } s = { s with fl := f, pc := advance s.pc n } := by
  simp [commit, Effect.regs, Effect.nextPc]

/-! ### coreReset (R144, R190) -/

@[simp] theorem coreReset_mem (s : State) : (coreReset s).mem = s.mem := rfl
@[simp] theorem coreReset_x (s : State) : (coreReset s).x = State.reset.x := rfl
@[simp] theorem coreReset_pc (s : State) : (coreReset s).pc = State.reset.pc := rfl
@[simp] theorem coreReset_fl (s : State) : (coreReset s).fl = State.reset.fl := rfl
@[simp] theorem coreReset_run (s : State) : (coreReset s).run = .running := rfl
@[simp] theorem coreReset_out (s : State) : (coreReset s).out = [] := rfl

end Sys2Proof.Machine
end

