-- ==== Sys2Proof/Laws/Ops.lean ====
section
/-! SUPPORT. One lemma for each shared operation that says everything it can do, and the dispatch read as one effect. -/

namespace Sys2Proof.Machine

/-! ### The advance -/

@[simp] theorem advance_zero (pc : Addr) : advance pc 0#2 = pc + 1#9 := by unfold advance; bv_omega
@[simp] theorem advance_one (pc : Addr) : advance pc 1#2 = pc + 2#9 := by unfold advance; bv_omega
@[simp] theorem advance_two (pc : Addr) : advance pc 2#2 = pc + 3#9 := by unfold advance; bv_omega

/-! ### The register file -/

theorem checkRegister_ok {a : Byte} (h : a.toNat < 8) : checkRegister a = .ok ⟨a.toNat, h⟩ := by
  simp [checkRegister, h]

theorem checkRegister_error {a : Byte} (h : 8 ≤ a.toNat) : checkRegister a = .error (.invalidRegister a) := by
  simp [checkRegister, h]

theorem readRegister_ok {s : State} {a : Byte} (h : a.toNat < 8) : readRegister s a = .ok s.x[a.toNat] := by
  simp [readRegister, checkRegister_ok h, Except.map]

theorem readRegister_error {s : State} {a : Byte} (h : 8 ≤ a.toNat) :
    readRegister s a = .error (.invalidRegister a) := by
  simp [readRegister, checkRegister_error h, Except.map]

theorem writeRegister_ok {a v : Byte} (h : a.toNat < 8) :
    writeRegister a v = .ok { regWrite := some (⟨a.toNat, h⟩, v) } := by
  simp [writeRegister, checkRegister_ok h, Except.map]

theorem writeRegister_error {a v : Byte} (h : 8 ≤ a.toNat) : writeRegister a v = .error (.invalidRegister a) := by
  simp [writeRegister, checkRegister_error h, Except.map]

/-! ### The ALU -/

/-- The ALU with both indices legal: the effect of its result. -/
theorem aluApply_ok {tag : AluTag} {a b : Byte} {s : State} (ha : a.toNat < 8) (hb : b.toNat < 8) :
    aluApply tag a b s = aluEffect tag a (aluResult tag s.x[a.toNat] s.x[b.toNat]) := by
  simp [aluApply, readRegister_ok ha, readRegister_ok hb]

theorem aluApply_error_a {tag : AluTag} {a b : Byte} {s : State} (ha : 8 ≤ a.toNat) :
    aluApply tag a b s = .error (.invalidRegister a) := by
  simp [aluApply, readRegister_error ha]

theorem aluApply_error_b {tag : AluTag} {a b : Byte} {s : State} (ha : a.toNat < 8) (hb : 8 ≤ b.toNat) :
    aluApply tag a b s = .error (.invalidRegister b) := by
  simp [aluApply, readRegister_ok ha, readRegister_error hb]

@[simp] theorem aluResult_add (a b : Byte) : aluResult 0#2 a b = .value (addBytes a b) := rfl
@[simp] theorem aluResult_mul (a b : Byte) : aluResult 1#2 a b = .value (mulBytes a b) := rfl
@[simp] theorem aluResult_cmp (a b : Byte) : aluResult 2#2 a b = .flags (compareFlags a b) := rfl
@[simp] theorem aluResult_other (a b : Byte) : aluResult 3#2 a b = .unsupported := rfl

@[simp] theorem aluEffect_value (tag : AluTag) (a y : Byte) : aluEffect tag a (.value y) = writeRegister a y := rfl
@[simp] theorem aluEffect_flags (tag : AluTag) (a : Byte) (f : Flags) :
    aluEffect tag a (.flags f) = .ok { flWrite := some f } := rfl
@[simp] theorem aluEffect_unsupported (tag : AluTag) (a : Byte) :
    aluEffect tag a .unsupported = .error (.unsupportedOperation tag) := rfl

/-! ### The end of a step -/

@[simp] theorem finish_ok (n : BitVec 2) (e : Effect) (s : State) : finish n (.ok e) s = .next (commit n e s) := rfl
@[simp] theorem finish_error (n : BitVec 2) (c : FaultCause) (s : State) :
    finish n (.error c) s = .next (raise c s) := rfl

/-! ### The dispatch -/

/-- The Operation of each instruction (R75): its effect, or the fault it raises. -/
def operation (i : Instr) (s : State) : Except FaultCause Effect :=
  match i with
  | .hlt => .ok { halt := true }
  | .prn a => (readRegister s a).map (fun v => { outByte := some v })
  | .jmp a => branchEffect true a s
  | .jeq a => branchEffect (isEqual s.fl) a s
  | .jne a => branchEffect (!isEqual s.fl) a s
  | .ldi a imm => writeRegister a (immediate imm)
  | .mul a b => aluApply Config.aluMul a b s
  | .cmp a b => aluApply Config.aluCmp a b s

/-- Every arm of `exec` ends its own Operation. -/
theorem exec_eq_finish (i : Instr) (s : State) : exec i s = finish i.nOps (operation i s) s := by
  cases i <;> rfl

/-- An instruction always answers a next state: the commit of its effect, or the fault it raised. -/
theorem exec_next (i : Instr) (s : State) :
    exec i s = .next (match operation i s with
      | .ok e => commit i.nOps e s
      | .error c => raise c s) := by
  rw [exec_eq_finish]
  cases operation i s <;> rfl

/-- Everything a branch can do. -/
theorem branchEffect_cases (taken : Bool) (a : Byte) (s : State) :
    (taken = false ∧ branchEffect taken a s = .ok {}) ∨
    (taken = true ∧ ∃ h : a.toNat < 8, branchEffect taken a s = .ok { target := some s.x[a.toNat] }) ∨
    (taken = true ∧ 8 ≤ a.toNat ∧ branchEffect taken a s = .error (.invalidRegister a)) := by
  cases taken
  · exact .inl ⟨rfl, rfl⟩
  · by_cases h : a.toNat < 8
    · exact .inr (.inl ⟨rfl, h, by simp [branchEffect, readRegister_ok h, Except.map]⟩)
    · exact .inr (.inr ⟨rfl, by omega, by simp [branchEffect, readRegister_error (Nat.le_of_not_lt h), Except.map]⟩)

end Sys2Proof.Machine
end

