-- ==== Sys2Proof/Laws/Blocks.lean ====
section
/-! SUPPORT. What one use of the fetch port carries (50_blocks_and_interfaces.md R138), said once for every choice of the
don't-care values, and the decoder block's row of each opcode (R131). -/

namespace Sys2Proof.Machine

/-- `mem_addr[8]` is the range check. -/
theorem addr_bit8 (a : Addr) : a.getLsbD 8 = decide (255 < a.toNat) := by revert a; decide

/-! ### The fetch port -/

@[simp] theorem fetchPort_re (d : DontCare) (m : Memory) (a : Addr) (want : Bool) :
    (fetchPort d m a want).re = want := rfl

@[simp] theorem fetchPort_addr (d : DontCare) (m : Memory) (a : Addr) : (fetchPort d m a true).addr = a := rfl

/-- Whatever is or is not requested, the range check is of the address presented. -/
theorem fetchPort_oor (d : DontCare) (m : Memory) (a : Addr) (want : Bool) :
    (fetchPort d m a want).oor = decide (255 < (fetchPort d m a want).addr.toNat) := addr_bit8 _

/-- An idle port presents an address that the port may present. -/
theorem fetchPort_idle (d : DontCare) (m : Memory) (a : Addr) : (fetchPort d m a false).addr.toNat ≤ 256 := by
  have : (d.memAddr : Nat) < 257 := d.memAddr.isLt
  simp [fetchPort, memoryAnswer]
  omega

/-- A wanted read fails exactly when its address is above 255. -/
@[simp] theorem fetchPort_failed (d : DontCare) (m : Memory) (a : Addr) (want : Bool) :
    (fetchPort d m a want).failed = (want && decide (255 < a.toNat)) := by
  cases want
  · rfl
  · show (fetchPort d m a true).oor = _
    rw [fetchPort_oor, fetchPort_addr, Bool.true_and]

/-- A wanted read is served exactly when its address is at most 255. -/
@[simp] theorem fetchPort_served (d : DontCare) (m : Memory) (a : Addr) (want : Bool) :
    (fetchPort d m a want).served = (want && decide (a.toNat ≤ 255)) := by
  cases want
  · rfl
  · show (!(fetchPort d m a true).oor) = _
    rw [fetchPort_oor, fetchPort_addr, Bool.true_and, ← decide_not, decide_eq_decide]
    exact Nat.not_lt

/-- An address in range carries the byte of the memory. -/
theorem memoryAnswer_rdata (d : DontCare) (m : Memory) {a : Addr} (re : Bool) (h : a.toNat ≤ 255) :
    (memoryAnswer d m a re).rdata = m.read a.toNat := by
  have bit : a.getLsbD 8 = false := by rw [addr_bit8]; simpa using h
  exact if_neg (by rw [bit]; exact Bool.false_ne_true)

/-- A served read carries the byte of the memory. -/
theorem fetchPort_rdata (d : DontCare) (m : Memory) {a : Addr} (h : a.toNat ≤ 255) :
    (fetchPort d m a true).rdata = m.read a.toNat := memoryAnswer_rdata d m true h

/-! ### The register file at the end of a step -/

/-- `bad_idx` suppresses the write. -/
theorem registerFileNext_bad {x : Vector Byte 8} {i : RegFileIn} (h : i.badIdx = true) (wData : Byte) :
    registerFileNext x i wData = x := by
  simp [registerFileNext, h]

/-- Without a requested write nothing changes. -/
theorem registerFileNext_idle {x : Vector Byte 8} {i : RegFileIn} (h : i.wEn = false) (wData : Byte) :
    registerFileNext x i wData = x := by
  simp [registerFileNext, h]

/-- A requested write that is not suppressed. -/
theorem registerFileNext_write {x : Vector Byte 8} {i : RegFileIn} (h : i.wIdx.toNat < 8) (en : i.wEn = true)
    (ok : i.badIdx = false) (wData : Byte) : registerFileNext x i wData = x.set i.wIdx.toNat wData := by
  simp [registerFileNext, h, en, ok]

/-! ### The decoder's outputs that the fetch uses -/

theorem instructionDecoder_valid (d : DontCare) (ir : Byte) :
    (instructionDecoder d ir).valid = (decodeOpcode ir).isSome := by
  have row : (instructionDecoder d ir).valid = (decoderTable.find? (fun r => r.ir == ir)).isSome := by
    unfold instructionDecoder
    cases decoderTable.find? (fun r => r.ir == ir) <;> rfl
  rw [row]
  clear row d
  revert ir
  decide

theorem instructionDecoder_nOps (d : DontCare) (o : Opcode) :
    (instructionDecoder d o.byte).nOps = operandCount o.byte := by cases o <;> rfl

/-! ### The three uses of the port in a step -/

/-- When the first read is not served, or gives an undefined byte, nothing more is requested. -/
theorem fetchUses_opcode_only {d : DontCare} {s : State} (h : s.run = .running)
    (stop : 255 < s.pc.toNat ∨ decodeOpcode (s.mem.read s.pc.toNat) = none) :
    fetchUses d s = ⟨fetchPort d s.mem s.pc true, fetchPort d s.mem (s.pc + 1) false,
      fetchPort d s.mem (s.pc + 2) false⟩ := by
  by_cases hp : s.pc.toNat ≤ 255
  · have hn := stop.resolve_left (Nat.not_lt.mpr hp)
    simp [fetchUses, h, fetchPort_rdata d s.mem hp, instructionDecoder_valid, hn]
  · simp [fetchUses, h, hp]

/-- Outside RUNNING nothing is requested. -/
theorem fetchUses_idle {d : DontCare} {s : State} (h : s.run ≠ .running) :
    fetchUses d s = ⟨fetchPort d s.mem s.pc false, fetchPort d s.mem (s.pc + 1) false,
      fetchPort d s.mem (s.pc + 2) false⟩ := by
  simp [fetchUses, h]

/-- A defined opcode requests as many operand bytes as its count says, the second only after the first was served. -/
theorem fetchUses_defined {d : DontCare} {s : State} {o : Opcode} (h : s.run = .running) (hp : s.pc.toNat ≤ 255)
    (ho : s.mem.read s.pc.toNat = o.byte) :
    fetchUses d s = ⟨fetchPort d s.mem s.pc true,
      fetchPort d s.mem (s.pc + 1) (decide ((operandCount o.byte).toNat ≥ 1)),
      fetchPort d s.mem (s.pc + 2) (decide ((operandCount o.byte).toNat = 2 ∧ s.pc.toNat ≤ 254))⟩ := by
  have valid : (decodeOpcode o.byte).isSome = true := by cases o <;> rfl
  have second : (s.pc + 1).toNat ≤ 255 ↔ s.pc.toNat ≤ 254 := by bv_omega
  have two : (operandCount o.byte).toNat = 2 → (operandCount o.byte).toNat ≥ 1 := by omega
  simp only [fetchUses, h, decide_true, fetchPort_served, fetchPort_rdata d s.mem hp, ho, instructionDecoder_valid,
    instructionDecoder_nOps, valid, hp, second, Bool.true_and, ← Bool.decide_and]
  congr 3
  exact propext ⟨fun ⟨⟨_, b⟩, c⟩ => ⟨c, b⟩, fun ⟨c, b⟩ => ⟨⟨two c, b⟩, c⟩⟩

end Sys2Proof.Machine
end

