-- ==== Sys2Proof/Laws/Memory.lean ====
section
/-! SUPPORT. The memory's laws: a read after a write, and the canonical form kept by every operation. -/

namespace Sys2Proof.Machine

@[simp] theorem Memory.read_nil (a : Nat) : Memory.read [] a = Config.emptyByte := rfl

theorem Memory.wfFrom_cons {lo k : Nat} {v : Byte} {m : Memory} :
    Memory.wfFrom lo ((k, v) :: m) = true ↔
      lo ≤ k ∧ k < Config.memSize ∧ v ≠ Config.emptyByte ∧ Memory.wfFrom (k + 1) m = true := by
  simp [Memory.wfFrom, and_assoc]

/-- The canonical form above a bound is one above any lower bound. -/
theorem Memory.wfFrom_mono {lo hi : Nat} {m : Memory} (h : lo ≤ hi) (w : Memory.wfFrom hi m = true) :
    Memory.wfFrom lo m = true := by
  cases m with
  | nil => rfl
  | cons c m =>
    obtain ⟨k, v⟩ := c
    rw [Memory.wfFrom_cons] at w ⊢
    exact ⟨h.trans w.1, w.2⟩

/-- A cell below the bound is not listed. -/
theorem Memory.read_below {lo a : Nat} {m : Memory} (w : Memory.wfFrom lo m = true) (h : a < lo) :
    m.read a = Config.emptyByte := by
  induction m generalizing lo with
  | nil => rfl
  | cons c m ih =>
    obtain ⟨k, v⟩ := c
    rw [Memory.wfFrom_cons] at w
    rw [Memory.read, if_neg (by omega), ih w.2.2.2 (by omega)]

/-- Writing one cell keeps the canonical form. -/
theorem Memory.write_wfFrom {lo a : Nat} {v : Byte} {m : Memory} (w : Memory.wfFrom lo m = true)
    (hlo : lo ≤ a) (ha : a < Config.memSize) : Memory.wfFrom lo (m.write a v) = true := by
  induction m generalizing lo with
  | nil =>
    rw [Memory.write]
    split
    · rfl
    · rename_i hv
      exact Memory.wfFrom_cons.mpr ⟨hlo, ha, hv, rfl⟩
  | cons c m ih =>
    obtain ⟨k, u⟩ := c
    have w' := Memory.wfFrom_cons.mp w
    rw [Memory.write]
    split
    · split
      · exact w
      · rename_i hlt hv
        exact Memory.wfFrom_cons.mpr ⟨hlo, ha, hv, Memory.wfFrom_cons.mpr ⟨hlt, w'.2⟩⟩
    · split
      · split
        · exact Memory.wfFrom_mono (by omega) w'.2.2.2
        · rename_i hv
          exact Memory.wfFrom_cons.mpr ⟨w'.1, w'.2.1, hv, w'.2.2.2⟩
      · exact Memory.wfFrom_cons.mpr ⟨w'.1, w'.2.1, w'.2.2.1, ih w'.2.2.2 (by omega)⟩

/-- Writing one cell keeps the memory in its canonical form. -/
theorem Memory.write_wf {a : Nat} {v : Byte} {m : Memory} (w : m.wf = true) (ha : a < Config.memSize) :
    (m.write a v).wf = true := Memory.write_wfFrom w (Nat.zero_le a) ha

theorem Memory.read_cons {k a : Nat} {v : Byte} {m : Memory} :
    Memory.read ((k, v) :: m) a = if k = a then v else Memory.read m a := rfl

/-- A read after a write, above a bound. -/
theorem Memory.read_write_from {lo a b : Nat} {v : Byte} {m : Memory} (w : Memory.wfFrom lo m = true) :
    Memory.read (Memory.write m a v) b = if b = a then v else Memory.read m b := by
  induction m generalizing lo with
  | nil =>
    rw [Memory.write]
    by_cases hv : v = Config.emptyByte
    · rw [if_pos hv]
      split
      · rw [hv, Memory.read_nil]
      · rfl
    · rw [if_neg hv, Memory.read_cons]
      by_cases hb : b = a
      · rw [if_pos hb.symm, if_pos hb]
      · rw [if_neg (Ne.symm hb), if_neg hb]
  | cons c m ih =>
    obtain ⟨k, u⟩ := c
    have w' := (Memory.wfFrom_cons.mp w).2.2.2
    have below : ∀ j, j ≤ k → Memory.read m j = Config.emptyByte :=
      fun j h => Memory.read_below w' (Nat.lt_succ_of_le h)
    rw [Memory.write]
    split
    · rename_i hlt
      by_cases hb : b = a
      · subst hb
        rw [if_pos rfl]
        split
        · rename_i hv
          rw [Memory.read_cons, if_neg (by omega), below b (by omega), hv]
        · rw [Memory.read_cons, if_pos rfl]
      · rw [if_neg hb]
        split
        · rfl
        · rw [Memory.read_cons, if_neg (Ne.symm hb)]
    · split
      · rename_i heq
        subst heq
        by_cases hb : b = a
        · subst hb
          rw [if_pos rfl]
          split
          · rename_i hv
            rw [below b (Nat.le_refl b), hv]
          · rw [Memory.read_cons, if_pos rfl]
        · rw [if_neg hb, Memory.read_cons, if_neg (Ne.symm hb)]
          split
          · rfl
          · rw [Memory.read_cons, if_neg (Ne.symm hb)]
      · rename_i hne
        rw [Memory.read_cons, Memory.read_cons]
        by_cases hk : k = b
        · rw [if_pos hk, if_pos hk, if_neg (fun h => hne (h.symm.trans hk.symm))]
        · rw [if_neg hk, if_neg hk]
          exact ih w'

/-- Reading back: the written cell holds the written byte, every other cell what it held. -/
theorem Memory.read_write {a b : Nat} {v : Byte} {m : Memory} (w : m.wf = true) :
    (m.write a v).read b = if b = a then v else m.read b := Memory.read_write_from w

/-- Loading a list of bytes keeps the canonical form. -/
theorem Memory.load_wf {a : Nat} {bs : List Byte} {m : Memory} (w : m.wf = true) : (Memory.load a bs m).wf = true := by
  induction bs generalizing a m with
  | nil => exact w
  | cons b bs ih =>
    rw [Memory.load]
    apply ih
    split
    · rename_i h
      exact Memory.write_wf w h
    · exact w

/-- What a loaded memory reads as: the bytes of the list where they were put, what it read before elsewhere. -/
theorem Memory.read_load {bs : List Byte} {a : Nat} {m : Memory} (w : m.wf = true)
    (fits : a + bs.length ≤ Config.memSize) :
    (∀ k (h : k < bs.length), (Memory.load a bs m).read (a + k) = bs[k]) ∧
    (∀ b, b < a ∨ a + bs.length ≤ b → (Memory.load a bs m).read b = m.read b) := by
  induction bs generalizing a m with
  | nil => exact ⟨fun k h => absurd h (Nat.not_lt_zero k), fun b _ => rfl⟩
  | cons x bs ih =>
    rw [List.length_cons] at fits
    have ha : a < Config.memSize := by omega
    obtain ⟨inside, outside⟩ := ih (a := a + 1) (Memory.write_wf (v := x) w ha) (by omega)
    rw [Memory.load, if_pos ha]
    constructor
    · intro k hk
      cases k with
      | zero =>
        rw [outside _ (by omega)]
        exact (Memory.read_write w).trans (if_pos rfl)
      | succ k =>
        rw [show a + (k + 1) = a + 1 + k by omega, inside k (Nat.lt_of_succ_lt_succ hk)]
        rfl
    · intro b hb
      rw [List.length_cons] at hb
      rw [outside b (by omega)]
      exact (Memory.read_write w).trans (if_neg (by omega))

/-- Reset memory is in its canonical form. -/
theorem reset_mem_wf : State.reset.mem.wf = true := rfl

/-- The memory contract's write keeps the canonical form. -/
theorem memWrite_wf {s s' : State} {addr : Addr} {v : Byte} (w : s.mem.wf = true)
    (h : memWrite s addr v = .ok s') : s'.mem.wf = true := by
  unfold memWrite at h
  split at h
  · cases h
    rename_i ha
    exact Memory.write_wf w ha
  · cases h

/-- Storing a word of the opcode table keeps the canonical form. -/
theorem withFetchWord_wf {s : State} {nbits w : Nat} (h : s.mem.wf = true) :
    (s.withFetchWord nbits w).mem.wf = true := Memory.load_wf h

end Sys2Proof.Machine
end

