-- ==== Sys2Proof/Laws/PerInstr.lean ====
section
/-! SUPPORT. The statement made of every instruction, one lemma a constructor: how its encoding is laid out (R50, R51). -/

/-- The encoding begins with the opcode byte of the instruction's row, and its length is the operand count field plus
one. -/
def Sys2Proof.Laws.EncodedShape.Statement (i : Sys2Proof.Instr) : Prop :=
  (Sys2Proof.encode i).head? = some i.opcode.byte ∧ (Sys2Proof.encode i).length = i.nOps.toNat + 1

namespace Sys2Proof.Laws.EncodedShape

theorem hlt : Statement .hlt := ⟨rfl, by simp [encode, Instr.operands]⟩
theorem prn (a : Byte) : Statement (.prn a) := ⟨rfl, by simp [encode, Instr.operands]⟩
theorem jmp (a : Byte) : Statement (.jmp a) := ⟨rfl, by simp [encode, Instr.operands]⟩
theorem jeq (a : Byte) : Statement (.jeq a) := ⟨rfl, by simp [encode, Instr.operands]⟩
theorem jne (a : Byte) : Statement (.jne a) := ⟨rfl, by simp [encode, Instr.operands]⟩
theorem ldi (a imm : Byte) : Statement (.ldi a imm) := ⟨rfl, by simp [encode, Instr.operands]⟩
theorem mul (a b : Byte) : Statement (.mul a b) := ⟨rfl, by simp [encode, Instr.operands]⟩
theorem cmp (a b : Byte) : Statement (.cmp a b) := ⟨rfl, by simp [encode, Instr.operands]⟩

end Sys2Proof.Laws.EncodedShape
end

