-- ==== Sys2Proof/Laws/Step.lean ====
section
/-! SUPPORT. Everything a step and a run can do, said once. -/

namespace Sys2Proof.Machine

/-! ### The fetch window -/

/-- The bytes from an address to the end of the memory, at most three. -/
theorem fetchWindow_eq (s : State) : fetchWindow s =
    if s.pc.toNat < 254 then [s.mem.read s.pc.toNat, s.mem.read (s.pc.toNat + 1), s.mem.read (s.pc.toNat + 2)]
    else if s.pc.toNat = 254 then [s.mem.read 254, s.mem.read 255]
    else if s.pc.toNat = 255 then [s.mem.read 255]
    else [] := by
  have r : List.range 3 = [0, 1, 2] := rfl
  unfold fetchWindow
  rw [r]
  by_cases h1 : s.pc.toNat < 254
  · have a : s.pc.toNat < 256 := by omega
    have b : s.pc.toNat + 1 < 256 := by omega
    have c : s.pc.toNat + 2 < 256 := by omega
    simp [h1, a, b, c]
  · by_cases h2 : s.pc.toNat = 254
    · simp [h2, List.filterMap, Config.memSize]
    · by_cases h3 : s.pc.toNat = 255
      · simp [h3, List.filterMap, Config.memSize]
      · have a : ¬ s.pc.toNat < 256 := by omega
        have b : ¬ s.pc.toNat + 1 < 256 := by omega
        have c : ¬ s.pc.toNat + 2 < 256 := by omega
        simp [h1, h2, h3, a, b, c]

/-- How many bytes the window holds. -/
theorem fetchWindow_length (s : State) : (fetchWindow s).length = min 3 (256 - s.pc.toNat) := by
  rw [fetchWindow_eq]
  split <;> [skip; split] <;> [skip; skip; split] <;> simp <;> omega

/-- While `PC` is an address the window begins with the byte there. -/
theorem fetchWindow_cons {s : State} (h : s.pc.toNat ≤ 255) :
    ∃ tail, fetchWindow s = s.mem.read s.pc.toNat :: tail ∧ tail.length = min 2 (255 - s.pc.toNat) := by
  have len := fetchWindow_length s
  rw [fetchWindow_eq] at len ⊢
  split
  · exact ⟨_, rfl, by simp; omega⟩
  · split
    · rename_i h1
      exact ⟨[s.mem.read 255], by rw [h1], by simp [h1]⟩
    · rw [if_pos (by omega)]
      exact ⟨[], by rw [show s.pc.toNat = 255 by omega], by simp; omega⟩

/-- Past the end of the memory the window is empty. -/
theorem fetchWindow_nil {s : State} (h : 255 < s.pc.toNat) : fetchWindow s = [] := by
  rw [fetchWindow_eq, if_neg (by omega), if_neg (by omega), if_neg (by omega)]

/-- Everything a fetch that faults can have met. -/
theorem fetch_error_cases {s : State} {c : FaultCause} (h : fetch s = .error c) :
    (255 < s.pc.toNat ∧ c = .outOfRange s.pc) ∨
    (s.pc.toNat ≤ 255 ∧ decodeOpcode (s.mem.read s.pc.toNat) = none ∧
      c = .unknownOpcode (s.mem.read s.pc.toNat)) ∨
    (∃ o : Opcode, s.pc.toNat ≤ 255 ∧ s.mem.read s.pc.toNat = o.byte ∧
      255 < s.pc.toNat + (operandCount o.byte).toNat ∧ c = .outOfRange 256) := by
  unfold fetch at h
  by_cases hp : 255 < s.pc.toNat
  · rw [fetchWindow_nil hp] at h
    cases h
    exact .inl ⟨hp, rfl⟩
  · have hp' : s.pc.toNat ≤ 255 := by omega
    obtain ⟨tail, hw, hl⟩ := fetchWindow_cons hp'
    rw [hw, decode] at h
    cases ho : decodeOpcode (s.mem.read s.pc.toNat) with
    | none =>
      rw [ho] at h
      cases h
      exact .inr (.inl ⟨hp', rfl, rfl⟩)
    | some o =>
      rw [ho] at h
      rcases decodeOperands_cases o tail with ⟨_, i, rest, hd⟩ | ⟨short, hd⟩
      · simp only [hd] at h
        cases h
      · simp only [hd] at h
        cases h
        have two : (operandCount o.byte).toNat ≤ 2 := by cases o <;> simp [operandCount_byte]
        refine .inr (.inr ⟨o, hp', (decodeOpcode_eq_some_iff _ _).mp ho, by omega, ?_⟩)
        rw [show s.pc + BitVec.ofNat 9 (tail.length + 1) = 256 by bv_omega]

/-! ### The instructions -/

/-- Everything an instruction can do: raise InvalidRegister with an index above 7 that it presents to the register file,
or, when it presents none, commit its effect. -/
theorem exec_cases (i : Instr) (s : State) :
    (∃ r, r ∈ registersRead i s.fl ++ registersWritten i ∧ 7 < r.toNat ∧
      exec i s = .next (raise (.invalidRegister r) s)) ∨
    ((∀ r, r ∈ registersRead i s.fl ++ registersWritten i → r.toNat < 8) ∧
      ∃ e, operation i s = .ok e ∧ exec i s = .next (commit i.nOps e s) ∧ (e.halt = true ↔ i = .hlt) ∧
        (e.outByte ≠ none → ∃ a, i = .prn a)) := by
  rw [exec_next]
  have branch : ∀ (taken : Bool) (a : Byte), (taken = true ∧ 8 ≤ a.toNat ∧
      branchEffect taken a s = .error (.invalidRegister a)) ∨ ((taken = true → a.toNat < 8) ∧
      ∃ t, branchEffect taken a s = .ok { target := t }) := by
    intro taken a
    rcases branchEffect_cases taken a s with ⟨h, e⟩ | ⟨h, h8, e⟩ | ⟨h, h8, e⟩
    · exact .inr ⟨by simp [h], _, e⟩
    · exact .inr ⟨fun _ => h8, _, e⟩
    · exact .inl ⟨h, h8, e⟩
  cases i with
  | hlt => exact .inr (by simp [operation, registersRead, registersWritten])
  | prn a =>
    by_cases h : a.toNat < 8
    · exact .inr (by simp [operation, registersRead, registersWritten, readRegister_ok h, Except.map, h])
    · exact .inl ⟨a, by simp [registersRead], by omega,
        by simp [operation, readRegister_error (Nat.le_of_not_lt h), Except.map]⟩
  | jmp a =>
    rcases branch true a with ⟨_, h, e⟩ | ⟨h, t, e⟩
    · exact .inl ⟨a, by simp [registersRead], by omega, by simp [operation, e]⟩
    · exact .inr (by simp [operation, registersRead, registersWritten, e, h])
  | jeq a =>
    rcases branch (isEqual s.fl) a with ⟨t, h, e⟩ | ⟨h, t, e⟩
    · have t' : s.fl.e = true := t
      exact .inl ⟨a, by simp [registersRead, t'], by omega, by simp [operation, e]⟩
    · exact .inr (by
        simp only [operation, e]
        simpa [registersRead, registersWritten, isEqual] using h)
  | jne a =>
    rcases branch (!isEqual s.fl) a with ⟨t, h, e⟩ | ⟨h, t, e⟩
    · have t' : s.fl.e = false := by simpa [isEqual] using t
      exact .inl ⟨a, by simp [registersRead, t'], by omega, by simp [operation, e]⟩
    · exact .inr (by
        simp only [operation, e]
        simpa [registersRead, registersWritten, isEqual] using h)
  | ldi a imm =>
    by_cases h : a.toNat < 8
    · exact .inr (by simp [operation, registersRead, registersWritten, writeRegister_ok h, h])
    · exact .inl ⟨a, by simp [registersWritten], by omega,
        by simp [operation, writeRegister_error (Nat.le_of_not_lt h)]⟩
  | mul a b =>
    by_cases h : a.toNat < 8
    · by_cases h' : b.toNat < 8
      · exact .inr (by simp [operation, registersRead, registersWritten, aluApply_ok h h', writeRegister_ok h, h, h'])
      · exact .inl ⟨b, by simp [registersRead], by omega,
          by simp [operation, aluApply_error_b h (Nat.le_of_not_lt h')]⟩
    · exact .inl ⟨a, by simp [registersRead], by omega, by simp [operation, aluApply_error_a (Nat.le_of_not_lt h)]⟩
  | cmp a b =>
    by_cases h : a.toNat < 8
    · by_cases h' : b.toNat < 8
      · exact .inr (by simp [operation, registersRead, registersWritten, aluApply_ok h h', h, h'])
      · exact .inl ⟨b, by simp [registersRead], by omega,
          by simp [operation, aluApply_error_b h (Nat.le_of_not_lt h')]⟩
    · exact .inl ⟨a, by simp [registersRead], by omega, by simp [operation, aluApply_error_a (Nat.le_of_not_lt h)]⟩

/-! ### The step -/

theorem step_halted {s : State} (h : s.run = .halted) : step s = .fault .halted := by simp [step, h]

theorem step_faulted {s : State} {c : FaultCause} (h : s.run = .faulted c) : step s = .fault (.faulted c) := by
  simp [step, h]

theorem step_fetch_error {s : State} {c : FaultCause} (h : s.run = .running) (hf : fetch s = .error c) :
    step s = .next (raise c s) := by simp [step, h, hf]

theorem step_fetch_ok {s : State} {i : Instr} (h : s.run = .running) (hf : fetch s = .ok i) :
    step s = exec i s := by simp [step, h, hf]

/-- Everything a step that answers a next state can have done. -/
theorem step_cases {s t : State} (h : step s = .next t) :
    s.run = .running ∧ ((∃ c, fetch s = .error c ∧ t = raise c s) ∨ ∃ i, fetch s = .ok i ∧ exec i s = .next t) := by
  cases hr : s.run with
  | halted => rw [step_halted hr] at h; cases h
  | faulted c => rw [step_faulted hr] at h; cases h
  | running =>
    cases hf : fetch s with
    | error c =>
      rw [step_fetch_error hr hf] at h
      cases h
      exact ⟨rfl, .inl ⟨c, rfl, rfl⟩⟩
    | ok i =>
      rw [step_fetch_ok hr hf] at h
      exact ⟨rfl, .inr ⟨i, rfl, h⟩⟩

/-! ### Runs -/

@[simp] theorem runsTo_zero {s t : State} : runsTo 0 s t ↔ s = t := by
  constructor
  · intro h
    cases h
    rfl
  · rintro rfl
    rfl

/-- The host's run, unfolded by one step. -/
theorem run_succ (k : Nat) (s : State) : Host.Core.run Sys2Proof.core (k + 1) s = match step s with
    | .next u => Host.Core.run Sys2Proof.core k u
    | .fault r => .fault r
    | .refused r => .refused r := by
  refine (Host.Core.run.eq_2 Sys2Proof.core s k).trans ?_
  have same : Sys2Proof.core.step s = step s := rfl
  cases h : step s <;> rw [same.trans h]

/-- A run of one step more begins with a step. -/
theorem runsTo_succ {k : Nat} {s t : State} : runsTo (k + 1) s t ↔ ∃ u, step s = .next u ∧ runsTo k u t := by
  unfold runsTo
  rw [run_succ]
  cases step s with
  | next u => simp
  | fault r => simp
  | refused r => simp

/-- Two runs of the same length from the same state end in the same state. -/
theorem runsTo_unique {k : Nat} {s t u : State} (h : runsTo k s t) (h' : runsTo k s u) : t = u := by
  unfold runsTo at h h'
  rw [h] at h'
  cases h'
  rfl

/-- A run can be cut at any length. -/
theorem runsTo_add {j k : Nat} {s t : State} : runsTo (j + k) s t ↔ ∃ u, runsTo j s u ∧ runsTo k u t := by
  induction j generalizing s with
  | zero => simp
  | succ j ih =>
    rw [Nat.add_right_comm, runsTo_succ]
    simp only [runsTo_succ, ih]
    constructor
    · rintro ⟨u, hu, v, hv, ht⟩
      exact ⟨v, ⟨u, hu, hv⟩, ht⟩
    · rintro ⟨v, ⟨u, hu, hv⟩, ht⟩
      exact ⟨u, hu, v, hv, ht⟩

end Sys2Proof.Machine
end

