-- ==== Sys2Proof/Machine/Asm.lean ====
section
/-! DEFINITION. The assembler syntax of R59 (30_encoding.md): `MNEMONIC Ra[, Rb or imm]`, decimal, `opa` first. It plays
no part in a step. -/

namespace Sys2Proof.Machine

/-- A register operand, `R` and the decimal index. -/
def asmRegister (a : Byte) : String := "R" ++ toString a.toNat

/-- The line of assembler for an instruction (R59). -/
def asmLine : Instr → String
  | .hlt => "HLT"
  | .prn a => "PRN " ++ asmRegister a
  | .jmp a => "JMP " ++ asmRegister a
  | .jeq a => "JEQ " ++ asmRegister a
  | .jne a => "JNE " ++ asmRegister a
  | .ldi a imm => "LDI " ++ asmRegister a ++ ", " ++ toString imm.toNat
  | .mul a b => "MUL " ++ asmRegister a ++ ", " ++ asmRegister b
  | .cmp a b => "CMP " ++ asmRegister a ++ ", " ++ asmRegister b

end Sys2Proof.Machine
end

