-- ==== Sys2Proof/Tests/Slice0.lean ====
section
/-! SUPPORT. The model's own tests. Every expected result is one of 95_test_vectors.md (its table and row are named) or is
read from the rule that is named; none is the model's own answer. Then a witness for each statement that has hypotheses. -/

namespace Sys2Proof.Tests

open Sys2Proof.Machine

/-! ### Helpers -/

/-- A running state at `pc` with `bytes` from there, registers `x`, flags `fl`, the rest as at reset. -/
def stateAt (pc : Addr) (bytes : List Byte) (x : Vector Byte 8 := State.reset.x) (fl : Flags := Flags.clear) : State :=
  { State.reset with pc := pc, x := x, fl := fl, mem := Memory.load pc.toNat bytes [] }

/-- The next state, when there is one. -/
def nextOf : Host.Outcome State Fault Refusal → Option State
  | .next s => some s
  | .fault _ => none
  | .refused _ => none

theorem next_of_nextOf {o : Host.Outcome State Fault Refusal} {t : State} (h : nextOf o = some t) : o = .next t := by
  cases o <;> cases h
  rfl

/-- Registers with one of them set. -/
def withReg (i : Fin 8) (v : Byte) (x : Vector Byte 8 := State.reset.x) : Vector Byte 8 := x.set i v

def flG : Flags := { l := false, g := true, e := false }
def flL : Flags := { l := true, g := false, e := false }
def flE : Flags := { l := false, g := false, e := true }

/-! ### WellFormed: each check refuses an ill-formed term (R51) -/

theorem test_wf_prn : (Instr.prn 8).wellFormed = false := by decide
theorem test_wf_jmp : (Instr.jmp 8).wellFormed = false := by decide
theorem test_wf_jeq : (Instr.jeq 8).wellFormed = false := by decide
theorem test_wf_jne : (Instr.jne 255).wellFormed = false := by decide
theorem test_wf_ldi : (Instr.ldi 8 0).wellFormed = false := by decide
theorem test_wf_mul_a : (Instr.mul 8 0).wellFormed = false := by decide
theorem test_wf_mul_b : (Instr.mul 0 8).wellFormed = false := by decide
theorem test_wf_cmp_a : (Instr.cmp 8 0).wellFormed = false := by decide
theorem test_wf_cmp_b : (Instr.cmp 0 8).wellFormed = false := by decide

/-! ### Decoding: the words of R51 and R54, bit by bit (V0) -/

theorem test_decode_hlt : decode [0b00000001] = .instr .hlt [] := by decide
theorem test_decode_prn : decode [0b01000111, 0b00000110] = .instr (.prn 6) [] := by decide
theorem test_decode_jmp : decode [0b01010100, 0b00000011] = .instr (.jmp 3) [] := by decide
theorem test_decode_jeq : decode [0b01010101, 0b00000010] = .instr (.jeq 2) [] := by decide
theorem test_decode_jne : decode [0b01010110, 0b00000100] = .instr (.jne 4) [] := by decide
theorem test_decode_ldi : decode [0b10000010, 0b00000111, 0b11111110] = .instr (.ldi 7 254) [] := by decide
theorem test_decode_mul : decode [0b10100010, 0b00000001, 0b00000010] = .instr (.mul 1 2) [] := by decide
theorem test_decode_cmp : decode [0b10100111, 0b00000010, 0b00000001] = .instr (.cmp 2 1) [] := by decide

/-- R55: 8 of the 256 byte values are defined. -/
theorem test_decode_eight_bytes :
    ((List.range 256).filter (fun n => (decodeOpcode (BitVec.ofNat 8 n)).isSome)) =
      [1, 71, 84, 85, 86, 130, 162, 167] := by decide

/-- V0: the neighbours of the defined bytes, NOP's byte 0, LS-8's ADD 160, a count field of 3. -/
theorem test_decode_undefined :
    [0, 2, 65, 70, 72, 83, 87, 129, 131, 160, 161, 163, 166, 168, 193, 255].all
      (fun b => decide (decode [BitVec.ofNat 8 b, 0, 0] = .unknownOpcode (BitVec.ofNat 8 b))) = true := by decide

theorem test_decode_missing : decode [0xA2, 9] = .missingOperand 2 ∧ decode [0x47] = .missingOperand 1 ∧
    decode [] = .noOpcode := by decide

/-- Bit 15..8 of the table's word is `opa`, bit 23..16 `opb`; bits above `nbits` count as 0. -/
theorem test_decodeTableWord : decodeTableWord 24 0x08078282 = some (.ldi 0x82 7) ∧
    decodeTableWord 8 0xFFFF82 = some (.ldi 0 0) ∧ decodeTableWord 8 0 = none := by decide

theorem test_withFetchWord :
    (nextOf (step (State.reset.withFetchWord 24 0x080082))).map (fun t => (t.x[0], t.pc, t.mem)) =
      some (8, 3, [(0, 0x82), (2, 8)]) := by decide

/-! ### Steps (tables V1 and V2 of 95_test_vectors.md) -/

/-- V1 rows 1 and 2. -/
theorem test_hlt : nextOf (step (stateAt 5 [1])) = some { stateAt 5 [1] with run := .halted, pc := 6 } := by decide
theorem test_hlt_at_the_end : nextOf (step (stateAt 255 [1])) = some { stateAt 255 [1] with run := .halted, pc := 256 } := by
  decide

/-- V1 row 3, V2 row 10. -/
theorem test_prn : nextOf (step (stateAt 3 [71, 0] (withReg 0 8))) =
    some { stateAt 3 [71, 0] (withReg 0 8) with out := [8], pc := 5 } := by decide
theorem test_prn_bad : nextOf (step (stateAt 3 [71, 8] (withReg 0 7))) =
    some { stateAt 3 [71, 8] (withReg 0 7) with run := .faulted (.invalidRegister 8) } := by decide

/-- V1 rows 4 and 5. -/
theorem test_jmp : nextOf (step (stateAt 23 [84, 3] (withReg 3 15))) =
    some { stateAt 23 [84, 3] (withReg 3 15) with pc := 15 } := by decide
theorem test_jmp_zero : (nextOf (step (stateAt 10 [84, 0]))).map (·.pc) = some 0 := by decide

/-- V1 rows 8 and 14: taken; not taken with an index that is never checked. -/
theorem test_jeq_taken : (nextOf (step (stateAt 12 [85, 2] (withReg 2 20) flE))).map (·.pc) = some 20 := by decide
theorem test_jeq_not_taken : nextOf (step (stateAt 12 [85, 9] State.reset.x flG)) =
    some { stateAt 12 [85, 9] State.reset.x flG with pc := 14 } := by decide

/-- V1 rows 13 and 15. -/
theorem test_jne_taken : (nextOf (step (stateAt 18 [86, 4] (withReg 4 25)))).map (·.pc) = some 25 := by decide
theorem test_jne_not_taken : nextOf (step (stateAt 12 [86, 200] State.reset.x flE)) =
    some { stateAt 12 [86, 200] State.reset.x flE with pc := 14 } := by decide

/-- V1 row 21, V2 row 14. -/
theorem test_ldi : nextOf (step (stateAt 253 [130, 1, 7])) =
    some { stateAt 253 [130, 1, 7] with x := withReg 1 7, pc := 256 } := by decide
theorem test_ldi_bad : nextOf (step (stateAt 0 [130, 9, 5])) =
    some { stateAt 0 [130, 9, 5] with run := .faulted (.invalidRegister 9) } := by decide

/-- Table V3, 200 times 100 with the flags unchanged; V2 row 15. -/
theorem test_mul : nextOf (step (stateAt 6 [162, 0, 1] (withReg 0 200 (withReg 1 100)) flG)) =
    some { stateAt 6 [162, 0, 1] (withReg 0 200 (withReg 1 100)) flG with x := withReg 0 32 (withReg 1 100), pc := 9 } := by decide
theorem test_mul_bad : (nextOf (step (stateAt 0 [162, 8, 9]))).map (·.run) = some (.faulted (.invalidRegister 8)) := by
  decide

/-- Table V4, 128 against 127; V2 row 17. -/
theorem test_cmp : nextOf (step (stateAt 9 [167, 0, 1] (withReg 0 128 (withReg 1 127)) flL)) =
    some { stateAt 9 [167, 0, 1] (withReg 0 128 (withReg 1 127)) flL with fl := flG, pc := 12 } := by decide
theorem test_cmp_bad : nextOf (step (stateAt 0 [167, 0, 8] State.reset.x flL)) =
    some { stateAt 0 [167, 0, 8] State.reset.x flL with run := .faulted (.invalidRegister 8) } := by decide

/-- V2 rows 4, 5, 6, 7 and 9. -/
theorem test_unknown_before_range : (nextOf (step (stateAt 255 [255]))).map (·.run) =
    some (.faulted (.unknownOpcode 255)) := by decide
theorem test_fetch_at_256 : nextOf (step (stateAt 256 [])) =
    some { stateAt 256 [] with run := .faulted (.outOfRange 256) } := by decide
theorem test_operand_past_the_end : (nextOf (step (stateAt 255 [71]))).map (·.run) =
    some (.faulted (.outOfRange 256)) := by decide
theorem test_untaken_branch_past_the_end : (nextOf (step (stateAt 255 [85]))).map (·.run) =
    some (.faulted (.outOfRange 256)) := by decide
theorem test_range_before_register : (nextOf (step (stateAt 254 [162, 9]))).map (·.run) =
    some (.faulted (.outOfRange 256)) := by decide

/-! ### The ALU, the blocks, the host's view -/

/-- Table V3, column ADD; S1. -/
theorem test_add : addBytes 200 100 = 44 ∧ addBytes 255 255 = 254 ∧ addBytes 128 128 = 0 := by decide

/-- Table V3, column MUL. -/
theorem test_mul_values : mulBytes 255 255 = 1 ∧ mulBytes 15 17 = 255 ∧ mulBytes 16 16 = 0 := by decide

/-- R142: the port of a fault; R19: the packed flags. -/
theorem test_status : statusPort { State.reset with run := .faulted (.outOfRange 256) } =
    { running := false, halted := false, faulted := true, faultKind := 2, faultInfo := 256 } ∧
    packFlags flL = 4 ∧ packFlags flG = 2 ∧ packFlags flE = 1 := by decide

/-- R59: the syntax of the source's own examples. -/
theorem test_asm : asmLine (.ldi 0 5) = "LDI R0, 5" ∧ asmLine (.cmp 0 1) = "CMP R0, R1" := by decide

/-- R191. -/
theorem test_launch : nextOf (launch [130, 0, 8]) = some { State.reset with mem := [(0, 130), (2, 8)] } := by decide

/-! ### Witnesses: states and operands that meet the hypotheses of each statement, clause by clause -/

/-- Don't-care outputs that are all set, for the statements over every choice of them. -/
def dc : DontCare :=
  { memAddr := 256, memRdata := 255, opa := 255, opb := 255, instr := .mul, isBranch := true, isAlu := true,
    readsA := true, readsB := true, writesA := true, aluOp := 3, raData := 255, rbData := 255, y := 255, lge := flE,
    wData := 255 }

/-- OpcodeByteHasOneOfNineResults: an undefined byte, a defined one. -/
theorem witness_opcode_byte : decodeOpcode 255 = none ∧ decodeOpcode 1 = some .hlt := by decide

/-- DecodedBytesAreTheEncoding, OperandCountFieldGivesTheLength. -/
theorem witness_decoded_bytes : decode [167, 255, 0, 9] = .instr (.cmp 255 0) [9] ∧ (256 : Addr).toNat ≤ 256 ∧
    192 ≤ (192 : Byte).toNat := by decide

/-- The eight instruction statements, LdiThenPrnPrintsTheImmediate, AluAddWraps..., AluRefuses...: the last legal index,
the first illegal one, both values of E. -/
theorem witness_indices_and_flags : (7 : Byte).toNat < 8 ∧ 8 ≤ (8 : Byte).toNat ∧ flE.e = true ∧ flG.e = false := by
  decide

/-- LdiWritesTheImmediate, its clause on the end of the memory. -/
theorem witness_ldi_at_the_end : (stateAt 254 [130, 0]).run = .running ∧ (stateAt 254 [130, 0]).pc.toNat = 254 ∧
    (stateAt 254 [130, 0]).mem.read 254 = 0b10000010 ∧ (stateAt 255 [130]).pc.toNat = 255 ∧
    (stateAt 255 [130]).mem.read 255 = 0b10000010 := by decide

/-- WellFormedInstructionsComplete. -/
theorem witness_well_formed : (Instr.mul 7 7).wellFormed = true ∧ Instr.hlt.wellFormed = true := by decide

/-- RegistersAreReadAndWrittenAsTheTableSays, first part: an LDI and a MUL that change the last register. -/
theorem witness_register_written :
    (∃ t, exec (.ldi 7 5) State.reset = .next t ∧ t.x[(7 : Fin 8)] ≠ State.reset.x[(7 : Fin 8)]) ∧
    (∃ t, exec (.mul 7 7) (stateAt 0 [] (withReg 7 2)) = .next t ∧
      t.x[(7 : Fin 8)] ≠ (stateAt 0 [] (withReg 7 2)).x[(7 : Fin 8)]) :=
  ⟨⟨{ State.reset with x := withReg 7 5, pc := 3 }, next_of_nextOf (by decide), by decide⟩,
    ⟨{ stateAt 0 [] (withReg 7 4) with pc := 3 }, next_of_nextOf (by decide), by decide⟩⟩

/-- Its second part: registers that differ where a PRN, and a JNE that is not taken, do not read. -/
theorem witness_registers_unread :
    (∀ r : Fin 8, BitVec.ofNat 8 r ∈ registersRead (.prn 3) flE → (withReg 0 9)[r] = State.reset.x[r]) ∧
    (∀ r : Fin 8, BitVec.ofNat 8 r ∈ registersRead (.jne 3) flE → (withReg 3 9)[r] = State.reset.x[r]) := by decide

/-- FlagsAreWrittenByCmpAndReadByJeqAndJne: a CMP that changes the flags; flags that differ where a JEQ does not read. -/
theorem witness_flags :
    (∃ t, exec (.cmp 0 0) State.reset = .next t ∧ t.fl ≠ State.reset.fl) ∧
    ((∃ a, Instr.jeq 0 = .jeq a) ∨ (∃ a, Instr.jeq 0 = .jne a) → flL.e = flG.e) :=
  ⟨⟨{ State.reset with fl := flE, pc := 3 }, next_of_nextOf (by decide), by decide⟩, fun _ => rfl⟩

/-- NoInstructionLoadsOrStores, RunChangesOnlyByHltOrByAFault, EveryStepKeepsTheInvariant,
UnsupportedOperationIsUnreachable, OutputPortCarriesWhatOutGains: an instruction and a step that answer a next state, from
a state that meets the invariant. -/
theorem witness_step_next : (stateAt 254 [71, 0]).Inv ∧
    step (stateAt 254 [71, 0]) = .next { stateAt 254 [71, 0] with out := [0], pc := 256 } ∧
    exec (.prn 0) (stateAt 254 [71, 0]) = .next { stateAt 254 [71, 0] with out := [0], pc := 256 } :=
  ⟨⟨by decide, by decide, by decide, by decide⟩, next_of_nextOf (by decide), next_of_nextOf (by decide)⟩

/-- StepRunsTheDecodedInstruction. -/
theorem witness_decoded : (stateAt 254 [71, 200]).run = .running ∧
    decode (fetchWindow (stateAt 254 [71, 200])) = .instr (.prn 200) [] := by decide

/-- StepRunsTheInstructionStoredAtPc: a one-byte and a three-byte instruction that end at address 255. -/
theorem witness_stored :
    (∀ k (h : k < (Instr.hlt.opcode.byte :: Instr.hlt.operands).length), (stateAt 255 [1]).pc.toNat + k ≤ 255 ∧
      (stateAt 255 [1]).mem.read ((stateAt 255 [1]).pc.toNat + k) = (Instr.hlt.opcode.byte :: Instr.hlt.operands)[k]) ∧
    (∀ k (h : k < ((Instr.ldi 8 9).opcode.byte :: (Instr.ldi 8 9).operands).length),
      (stateAt 253 [130, 8, 9]).pc.toNat + k ≤ 255 ∧ (stateAt 253 [130, 8, 9]).mem.read ((stateAt 253 [130, 8, 9]).pc.toNat + k) =
        ((Instr.ldi 8 9).opcode.byte :: (Instr.ldi 8 9).operands)[k]) := by decide

/-- StepRunsTheWordStoredByWithFetchWord. -/
theorem witness_word : (stateAt 253 [1]).run = .running ∧ (stateAt 253 [1]).mem.wf = true ∧ (stateAt 253 [1]).pc.toNat ≤ 253 ∧
    decodeTableWord 24 0x0100A7 = some (.cmp 0 1) := by decide

/-- FetchFaultsInTheOrderOfTheChecks, its four clauses. -/
theorem witness_fetch_faults :
    255 < (stateAt 256 []).pc.toNat ∧
    ((stateAt 255 [0]).pc.toNat ≤ 255 ∧ decodeOpcode ((stateAt 255 [0]).mem.read 255) = none) ∧
    ((stateAt 255 [71]).pc.toNat = 255 ∧ decodeOpcode ((stateAt 255 [71]).mem.read 255) = some .prn) ∧
    ((stateAt 254 [162, 9]).pc.toNat = 254 ∧ decodeOpcode ((stateAt 254 [162, 9]).mem.read 254) = some .mul) := by decide

/-- StepCompletesExactlyWhenTheImageIsSound: a running state on each side. -/
theorem witness_sound_image :
    (storedAtPc (.prn 7) (stateAt 254 [71, 7]) ∧
      ∀ r, r ∈ registersRead (.prn 7) Flags.clear ++ registersWritten (.prn 7) → r.toNat < 8) ∧
    step (stateAt 254 [71, 8]) = .next { stateAt 254 [71, 8] with run := .faulted (.invalidRegister 8) } :=
  ⟨⟨by unfold storedAtPc; decide, by decide⟩, next_of_nextOf (by decide)⟩

/-- PcIsTheTargetOrTheSequentialSuccessor: a taken branch and a sequential step that ends past address 255. -/
theorem witness_pc :
    (step (stateAt 254 [86, 0]) = .next { stateAt 254 [86, 0] with pc := 0 } ∧
      ∀ c, ({ stateAt 254 [86, 0] with pc := 0 } : State).run ≠ .faulted c) ∧
    (step (stateAt 255 [1]) = .next { stateAt 255 [1] with run := .halted, pc := 256 } ∧
      ∀ c, ({ stateAt 255 [1] with run := .halted, pc := 256 } : State).run ≠ .faulted c) :=
  ⟨⟨next_of_nextOf (by decide), fun _ h => nomatch h⟩, ⟨next_of_nextOf (by decide), fun _ h => nomatch h⟩⟩

/-- AFaultingStepChangesOnlyRun, TheEmptyImageFaultsAtOnce's step. -/
theorem witness_faulting_step :
    step State.reset = .next { State.reset with run := .faulted (.unknownOpcode 0) } := next_of_nextOf (by decide)

/-- AStepIsTakenExactlyWhileRunning, StatusPortShowsTheRunState: each run state, with each cause. -/
theorem witness_run_states : State.reset.run = .running ∧ ({ State.reset with run := .halted } : State).run = .halted ∧
    (raise (.unknownOpcode 255) State.reset).run = .faulted (.unknownOpcode 255) ∧
    (raise (.outOfRange 256) State.reset).run = .faulted (.outOfRange 256) ∧
    (raise (.invalidRegister 8) State.reset).run = .faulted (.invalidRegister 8) ∧
    (raise (.unsupportedOperation 3) State.reset).run = .faulted (.unsupportedOperation 3) ∧
    (statusPort (raise (.unknownOpcode 255) State.reset)).faulted = true ∧
    (statusPort State.reset).faulted = false := by decide

/-- StepReadsOnlyTheInstructionsOwnBytes: a memory that differs just past the instruction. -/
theorem witness_own_bytes :
    step (stateAt 0 [71, 0]) = .next { stateAt 0 [71, 0] with out := [0], pc := 2 } ∧
    Memory.read (Memory.load 0 [71, 0, 9] []) 0 = (stateAt 0 [71, 0]).mem.read 0 ∧
    (∀ i rest, decode (fetchWindow (stateAt 0 [71, 0])) = .instr i rest → ∀ k, k < (encode i).length →
      Memory.read (Memory.load 0 [71, 0, 9] []) ((stateAt 0 [71, 0]).pc.toNat + k) =
        (stateAt 0 [71, 0]).mem.read ((stateAt 0 [71, 0]).pc.toNat + k)) ∧
    Memory.load 0 [71, 0, 9] [] ≠ (stateAt 0 [71, 0]).mem := by
  refine ⟨next_of_nextOf (by decide), by decide, ?_, by decide⟩
  intro i rest h
  have known : decode (fetchWindow (stateAt 0 [71, 0])) = .instr (.prn 0) [0] := by decide
  rw [known] at h
  cases h
  decide

/-- AluAddWrapsAndNoOpcodeSelectsIt, second part. -/
theorem witness_alu_opcode : (instructionDecoder dc 0b10100010).valid = true ∧
    (instructionDecoder dc 0b10100010).isAlu = true := by decide

/-- AluRefusesATagWithoutAnOperation: both sides of the equivalence occur. -/
theorem witness_alu_tag : (3 : AluTag) ≠ Config.aluAdd ∧ (3 : AluTag) ≠ Config.aluMul ∧ (3 : AluTag) ≠ Config.aluCmp := by
  decide

/-- BlockNetworkComputesTheStep holds of a step that evaluates with every don't-care output set. -/
theorem witness_block_step : blockStep dc (stateAt 255 [1]) = .next { stateAt 255 [1] with run := .halted, pc := 256 } :=
  next_of_nextOf (by decide)

/-- FetchPortRequestsExactlyTheReadsOfTheStep, each clause where it ends: a halted machine, `PC` = 256, an undefined byte,
HLT in the last cell, PRN in the last cell, LDI in the last but one and in the first. -/
theorem witness_requested_addresses :
    requestedAddresses dc { stateAt 0 [1] with run := .halted } = [] ∧ requestedAddresses dc (stateAt 256 []) = [256] ∧
    requestedAddresses dc (stateAt 255 [0]) = [255] ∧ requestedAddresses dc (stateAt 255 [1]) = [255] ∧
    requestedAddresses dc (stateAt 255 [71]) = [255, 256] ∧
    requestedAddresses dc (stateAt 254 [130, 0]) = [254, 255, 256] ∧
    requestedAddresses dc (stateAt 0 [130, 0, 8]) = [0, 1, 2] := by decide

/-- FetchPortCarriesTheByteOrTheRangeFault: a served read, a failed one that the step raises, and an idle port. -/
theorem witness_fetch_port :
    fetchUses dc (stateAt 255 [71]) =
      ⟨{ addr := 255, re := true, rdata := 71, oor := false }, { addr := 256, re := true, rdata := 255, oor := true },
        { addr := 256, re := false, rdata := 255, oor := true }⟩ ∧ (stateAt 255 [71]).run = .running ∧
    (step (stateAt 255 [71]) = .next { stateAt 255 [71] with run := .faulted (.outOfRange 256) } ∧
      256 ∈ requestedAddresses dc (stateAt 255 [71])) :=
  ⟨by decide, rfl, next_of_nextOf (by decide), by decide⟩

/-- RegisterFileReadsWritesAndReportsTheFirstBadIndex: the last legal index and the first bad one, on used and unused
ports, and the write that `bad_idx` suppresses beside the one it does not. -/
theorem witness_register_file :
    (registerFile dc State.reset.x ⟨7, true, 8, true, 7, true⟩).badIdx = true ∧
    (registerFile dc State.reset.x ⟨7, true, 8, true, 7, true⟩).badIdxVal = 8 ∧
    registerFileNext State.reset.x ⟨7, true, 8, true, 7, true⟩ 9 = State.reset.x ∧
    (registerFile dc State.reset.x ⟨8, false, 8, false, 7, true⟩).badIdx = false ∧
    (registerFile dc State.reset.x ⟨8, false, 8, false, 7, true⟩).badIdxVal = 7 ∧
    registerFileNext State.reset.x ⟨8, false, 8, false, 7, true⟩ 9 = State.reset.x.set 7 9 := by decide

/-- LaunchLeavesRegistersFlagsAndOutputAtReset. -/
theorem witness_launched : ∃ s, launch [130, 0, 8] = .next s := ⟨_, rfl⟩

/-- MemoryReadsBackWhatIsWrittenAndChecksItsRange: the last address, the first out of range, the fetch at 256. -/
theorem witness_memory : ((stateAt 0 [1]).mem.wf = true ∧ (255 : Addr).toNat ≤ 255) ∧ 255 < (256 : Addr).toNat ∧
    ((stateAt 256 []).pc.toNat ≤ 256 ∧ step (stateAt 256 []) = .next { stateAt 256 [] with run := .faulted (.outOfRange 256) }) :=
  ⟨by decide, by decide, by decide, next_of_nextOf (by decide)⟩

/-- MemoriesThatReadAlikeAreEqual: two ways of writing that leave the same bytes, up to address 255. -/
theorem witness_equal_memories :
    Memory.wf (Memory.load 254 [3, 1] []) = true ∧
    Memory.wf (Memory.write (Memory.load 254 [3, 1, 9] []) 254 3) = true ∧
    ∀ a, a < 256 → Memory.read (Memory.load 254 [3, 1] []) a =
      Memory.read (Memory.write (Memory.load 254 [3, 1, 9] []) 254 3) a := by
  have same : Memory.write (Memory.load 254 [3, 1, 9] []) 254 3 = Memory.load 254 [3, 1] [] := by decide
  rw [same]
  exact ⟨by decide, by decide, fun _ _ => rfl⟩

/-- LaunchPlacesTheImageFromAddressZero, AnImageLongerThanTheMemoryIsRefused: the longest image and one longer. -/
theorem witness_images : (List.replicate 256 (1 : Byte)).length ≤ 256 ∧ 256 < (List.replicate 257 (1 : Byte)).length :=
  ⟨le_of_eq List.length_replicate, lt_of_lt_of_eq (by decide) List.length_replicate.symm⟩

/-- The launched one-instruction image and its halted state. -/
def launchedHlt : State := { State.reset with mem := [(0, 1)] }

theorem launchedHlt_runs : runsTo 1 launchedHlt { launchedHlt with run := .halted, pc := 1 } :=
  runsTo_succ.mpr ⟨_, next_of_nextOf (by decide), runsTo_zero.mpr rfl⟩

/-- ResetDuringARunGivesTheLaunchedStateBack, ARunKeepsTheMemoryAndOnlyExtendsOut,
AHaltedRunNeitherFaultsNorGoesOn, AHaltedRunEndsJustAfterAHlt. -/
theorem witness_halted_run : launch [1] = .next launchedHlt ∧
    runsTo 1 launchedHlt { launchedHlt with run := .halted, pc := 1 } ∧ haltsWith launchedHlt [] :=
  ⟨next_of_nextOf (by decide), launchedHlt_runs, 1, _, launchedHlt_runs, rfl, rfl⟩

/-- EveryRunHaltsOrFaultsOrNeverEnds. -/
theorem witness_running_inv : launchedHlt.Inv ∧ launchedHlt.run = .running :=
  ⟨⟨by decide, by decide, by decide, by decide⟩, rfl⟩

/-- AnEndlessRunIsEventuallyPeriodic: `JMP R0` at address 0 with `x[0] = 0` (R100: a jump to its own address). -/
theorem witness_endless_run : runsForever (stateAt 0 [84, 0]) := by
  have loop : step (stateAt 0 [84, 0]) = .next (stateAt 0 [84, 0]) := next_of_nextOf (by decide)
  intro k
  refine ⟨stateAt 0 [84, 0], ?_, rfl⟩
  induction k with
  | zero => exact runsTo_zero.mpr rfl
  | succ k ih => exact runsTo_succ.mpr ⟨_, loop, ih⟩

end Sys2Proof.Tests
end

section
/-! PROOF. The flags (10_state.md R17): which Operation writes them, what each reads of them, and the obligation. -/

namespace Sys2Proof.Machine

/-! ### Who writes the flags -/

/-- A register write leaves the flags alone, so LDI and MUL do. -/
theorem writeRegister_flWrite {a v : Byte} {e : Effect} (h : writeRegister a v = .ok e) : e.flWrite = none := by
  by_cases ha : a.toNat < 8
  · rw [writeRegister_ok ha] at h
    cases h
    rfl
  · rw [writeRegister_error (Nat.le_of_not_lt ha)] at h
    cases h

/-- A branch leaves the flags alone, taken or not. -/
theorem branchEffect_flWrite {taken : Bool} {a : Byte} {s : State} {e : Effect}
    (h : branchEffect taken a s = .ok e) : e.flWrite = none := by
  rcases branchEffect_cases taken a s with ⟨_, eq⟩ | ⟨_, _, eq⟩ | ⟨_, _, eq⟩ <;> rw [eq] at h <;> cases h <;> rfl

/-- An ALU operation that answers an effect was given two legal indices, and the effect is that of its result. -/
theorem aluApply_eq_ok {tag : AluTag} {a b : Byte} {s : State} {e : Effect} (h : aluApply tag a b s = .ok e) :
    ∃ (ha : a.toNat < 8) (hb : b.toNat < 8),
      aluEffect tag a (aluResult tag s.x[a.toNat] s.x[b.toNat]) = .ok e := by
  by_cases ha : a.toNat < 8
  · by_cases hb : b.toNat < 8
    · exact ⟨ha, hb, aluApply_ok ha hb ▸ h⟩
    · rw [aluApply_error_b ha (Nat.le_of_not_lt hb)] at h
      cases h
  · rw [aluApply_error_a (Nat.le_of_not_lt ha)] at h
    cases h

/-- R17, the write: an effect that has new flags is the effect of a CMP. -/
theorem operation_flWrite {i : Instr} {s : State} {e : Effect} (h : operation i s = .ok e) :
    e.flWrite = none ∨ ∃ a b, i = .cmp a b := by
  cases i with
  | hlt =>
    cases h
    exact .inl rfl
  | prn a =>
    by_cases ha : a.toNat < 8
    · rw [operation, readRegister_ok ha] at h
      cases h
      exact .inl rfl
    · rw [operation, readRegister_error (Nat.le_of_not_lt ha)] at h
      cases h
  | jmp _ | jeq _ | jne _ => exact .inl (branchEffect_flWrite h)
  | ldi _ _ => exact .inl (writeRegister_flWrite h)
  | mul _ _ =>
    obtain ⟨_, _, hw⟩ := aluApply_eq_ok h
    exact .inl (writeRegister_flWrite hw)
  | cmp a b => exact .inr ⟨a, b, rfl⟩

/-- R17 after the commit: an instruction that is no CMP leaves the flags as they were, a faulting one included. -/
theorem exec_fl_of_not_cmp {i : Instr} {s t : State} (h : exec i s = .next t) (hi : ¬ ∃ a b, i = .cmp a b) :
    t.fl = s.fl := by
  rw [exec_next] at h
  cases ho : operation i s with
  | error c =>
    rw [ho] at h
    cases h
    rfl
  | ok e =>
    have kept : e.flWrite = none := (operation_flWrite ho).resolve_right hi
    rw [ho] at h
    cases h
    simp [kept]

/-! ### Who reads the flags -/

/-- R17, the read: an Operation is the same over other flags, for JEQ and JNE as long as they agree on `E`. -/
theorem operation_withFlags {i : Instr} {s : State} {f : Flags}
    (hf : (∃ a, i = .jeq a) ∨ (∃ a, i = .jne a) → f.e = s.fl.e) : operation i { s with fl := f } = operation i s := by
  cases i with
  | hlt | prn _ | jmp _ | ldi _ _ | mul _ _ | cmp _ _ => rfl
  | jeq a =>
    have same : isEqual f = isEqual s.fl := hf (.inl ⟨a, rfl⟩)
    exact congrArg (branchEffect · a s) same
  | jne a =>
    have same : isEqual f = isEqual s.fl := hf (.inr ⟨a, rfl⟩)
    exact congrArg (fun equal => branchEffect (!equal) a s) same

/-! ### The obligation -/

/-- Settles O17: the first part is `exec_fl_of_not_cmp`; for the second, the two runs have the same Operation
(`operation_withFlags`), and its commit or its fault looks at the old flags only to keep them. -/
theorem flagsAreWrittenByCmpAndReadByJeqAndJne : Obligations.FlagsAreWrittenByCmpAndReadByJeqAndJne := by
  unfold Obligations.FlagsAreWrittenByCmpAndReadByJeqAndJne
  refine ⟨fun i s t h changed => not_not.mp fun hi => changed (exec_fl_of_not_cmp h hi), fun i s f hf => ?_⟩
  refine ⟨_, _, exec_next i s, exec_next i { s with fl := f }, ?_⟩
  rw [operation_withFlags hf]
  cases operation i s with
  | error c => exact ⟨rfl, rfl, rfl, rfl, rfl, .inr ⟨rfl, rfl⟩⟩
  | ok e =>
    refine ⟨rfl, rfl, rfl, rfl, rfl, ?_⟩
    cases hw : e.flWrite with
    | none => exact .inr (by simp [hw])
    | some g => exact .inl (by simp [hw])

end Sys2Proof.Machine
end

section
/-! PROOF. The memory (20_memory.md): no instruction loads or stores (R35), where the instruction at `PC` stands (R32), and
the memory's contract with its range check (R30). -/

namespace Sys2Proof.Machine

/-! ### No load and no store (R35) -/

/-- An Operation is given no memory: it is the same over any other. -/
theorem operation_withMemory (i : Instr) (s : State) (m : Memory) :
    operation i { s with mem := m } = operation i s := by
  cases i <;> rfl

/-- Neither a commit nor a fault writes memory, so no instruction does. -/
theorem exec_mem {i : Instr} {s t : State} (h : exec i s = .next t) : t.mem = s.mem := by
  rw [exec_next] at h
  generalize operation i s = r at h
  cases r with
  | error _ | ok _ =>
    cases h
    rfl

/-- Over any other memory an instruction has the same result, and leaves that memory in place. -/
theorem exec_withMemory {i : Instr} {s t : State} (h : exec i s = .next t) (m : Memory) :
    exec i { s with mem := m } = .next { t with mem := m } := by
  rw [exec_next] at h ⊢
  rw [operation_withMemory]
  generalize operation i s = r at h ⊢
  cases r with
  | error _ | ok _ =>
    cases h
    rfl

/-- A step leaves the memory as it is, whether it runs an instruction or faults in its fetch. -/
theorem step_mem {s t : State} (h : step s = .next t) : t.mem = s.mem := by
  obtain ⟨-, ⟨c, -, rfl⟩ | ⟨i, -, hx⟩⟩ := step_cases h
  · rfl
  · exact exec_mem hx

/-- Settles O18: an instruction is the commit or the fault of an Operation that is given no memory. -/
theorem noInstructionLoadsOrStores : Obligations.NoInstructionLoadsOrStores := by
  unfold Obligations.NoInstructionLoadsOrStores
  refine ⟨fun i s m => ?_, fun s t h a => by rw [step_mem h]⟩
  have hx := exec_next i s
  exact ⟨_, hx, exec_mem hx, exec_withMemory hx m⟩

/-! ### The instruction at `PC` (R32) -/

/-- The decoder reads an instruction back from its encoding and leaves the bytes after it. -/
theorem decode_encode_append (i : Instr) (rest : List Byte) : decode (encode i ++ rest) = .instr i rest := by
  rw [encode, List.cons_append, decode, decodeOpcode_byte]
  cases i <;> rfl

/-- The longest instruction has three bytes (R50). -/
theorem encode_length_le (i : Instr) : (encode i).length ≤ 3 := by
  cases i <;> simp [encode, Instr.operands]

/-- The window as one list: the bytes from `PC` on, three or as many as there are up to address 255. -/
theorem fetchWindow_eq_map (s : State) : fetchWindow s =
    (List.range (min 3 (256 - s.pc.toNat))).map (fun k => s.mem.read (s.pc.toNat + k)) := by
  rw [fetchWindow_eq]
  by_cases whole : s.pc.toNat < 254
  · rw [if_pos whole, show min 3 (256 - s.pc.toNat) = 3 by omega]
    rfl
  by_cases two : s.pc.toNat = 254
  · rw [two]
    rfl
  by_cases one : s.pc.toNat = 255
  · rw [one]
    rfl
  · rw [if_neg whole, if_neg two, if_neg one, show min 3 (256 - s.pc.toNat) = 0 by omega]
    rfl

/-- Byte `k` of the fetch window is the byte at `PC + k`. -/
theorem fetchWindow_getElem {s : State} {k : Nat} (h : k < (fetchWindow s).length) :
    (fetchWindow s)[k] = s.mem.read (s.pc.toNat + k) := by
  simp [fetchWindow_eq_map]

/-- An instruction stored at `PC` begins the fetch window. -/
theorem storedAtPc.encode_prefix {i : Instr} {s : State} (h : storedAtPc i s) : encode i <+: fetchWindow s := by
  have fits : (encode i).length ≤ (fetchWindow s).length := by
    have last := (h ((encode i).length - 1) (by simp [encode])).1
    have := encode_length_le i
    rw [fetchWindow_length]
    simp only [memSize_eq] at last
    omega
  exact List.prefix_iff_getElem.mpr
    ⟨fits, fun k hk => ((fetchWindow_getElem (hk.trans_le fits)).trans (h k hk).2).symm⟩

/-- An instruction stored at `PC` is the one fetched. -/
theorem storedAtPc.fetch_eq {i : Instr} {s : State} (h : storedAtPc i s) : fetch s = .ok i := by
  obtain ⟨rest, hw⟩ := h.encode_prefix
  rw [fetch, ← hw, decode_encode_append]

/-- Settles O22: the stored bytes begin the fetch window and so decode to the instruction they encode. -/
theorem stepRunsTheInstructionStoredAtPc : Obligations.StepRunsTheInstructionStoredAtPc := by
  unfold Obligations.StepRunsTheInstructionStoredAtPc
  intro s i running stored
  have atPc : storedAtPc i s := fun k hk => ⟨Nat.lt_succ_of_le (stored k hk).1, (stored k hk).2⟩
  exact step_fetch_ok running atPc.fetch_eq

/-! ### The memory's contract and its range check (R30) -/

section
variable {s : State} {addr : Addr}

theorem memRead_ok (h : addr.toNat ≤ 255) : memRead s addr = .ok (s.mem.read addr.toNat) :=
  if_pos (Nat.lt_succ_of_le h)

theorem memRead_error (h : 255 < addr.toNat) : memRead s addr = .error (.outOfRange addr) :=
  if_neg (Nat.not_lt_of_le h)

theorem memWrite_ok (h : addr.toNat ≤ 255) (v : Byte) :
    memWrite s addr v = .ok { s with mem := s.mem.write addr.toNat v } :=
  if_pos (Nat.lt_succ_of_le h)

theorem memWrite_error (h : 255 < addr.toNat) (v : Byte) : memWrite s addr v = .error (.outOfRange addr) :=
  if_neg (Nat.not_lt_of_le h)

/-- The written cell reads back as the value written. -/
theorem memRead_write_same (w : s.mem.wf = true) (h : addr.toNat ≤ 255) (v : Byte) :
    memRead { s with mem := s.mem.write addr.toNat v } addr = .ok v := by
  rw [memRead_ok h]
  exact congrArg Except.ok ((Memory.read_write w).trans (if_pos rfl))

/-- Every other address reads as before, in range or not. -/
theorem memRead_write_other (w : s.mem.wf = true) {other : Addr} (ne : other ≠ addr) (v : Byte) :
    memRead { s with mem := s.mem.write addr.toNat v } other = memRead s other := by
  have apart : other.toNat ≠ addr.toNat := fun h => ne (BitVec.eq_of_toNat_eq h)
  rcases Nat.lt_or_ge 255 other.toNat with out | inside
  · rw [memRead_error out, memRead_error out]
  · rw [memRead_ok inside, memRead_ok inside]
    exact congrArg Except.ok ((Memory.read_write w).trans (if_neg apart))

end

/-- OutOfRange is the fetch's fault alone: an instruction that runs faults on a register index if at all. -/
theorem fetch_outOfRange_of_step {s t : State} {addr : Addr} (h : step s = .next t)
    (ht : t.run = .faulted (.outOfRange addr)) : fetch s = .error (.outOfRange addr) := by
  obtain ⟨running, ⟨c, hf, rfl⟩ | ⟨i, -, hx⟩⟩ := step_cases h
  · cases ht
    exact hf
  · rcases exec_cases i s with ⟨r, -, -, hr⟩ | ⟨-, e, -, he, -⟩
    · cases hx.symm.trans hr
      cases ht
    · cases hx.symm.trans he
      rw [commit_run, running] at ht
      split at ht <;> cases ht

/-- From a `PC` of at most 256 a fetch presents no address out of range but 256 (R15). -/
theorem fetch_outOfRange_addr {s : State} {addr : Addr} (hpc : s.pc.toNat ≤ 256)
    (h : fetch s = .error (.outOfRange addr)) : addr.toNat = 256 := by
  rcases fetch_error_cases h with ⟨past, hc⟩ | ⟨-, -, hc⟩ | ⟨_, -, -, -, hc⟩
  · cases hc
    omega
  · cases hc
  · cases hc
    rfl

/-- Settles O38: `memRead` and `memWrite` by the two sides of the range check, then the one address out of range that a
fetch can present. -/
theorem memoryReadsBackWhatIsWrittenAndChecksItsRange :
    Obligations.MemoryReadsBackWhatIsWrittenAndChecksItsRange := by
  unfold Obligations.MemoryReadsBackWhatIsWrittenAndChecksItsRange
  refine ⟨fun s addr v w h => ?_, fun s addr v h => ⟨memRead_error h, memWrite_error h v⟩,
    fun s t addr hpc h ht => fetch_outOfRange_addr hpc (fetch_outOfRange_of_step h ht)⟩
  exact ⟨memRead_ok h, _, memWrite_ok h v, rfl, memRead_write_same w h v,
    fun other ne => memRead_write_other w ne v⟩

end Sys2Proof.Machine
end

section
/-! PROOF. The operand count field `ir[7:6]` (30_encoding.md R50): what it is as a number, that no defined opcode has 3
there, and that it is the length of the bytes decoded and the advance of `PC`. -/

namespace Sys2Proof.Machine

/-! ### The field as a number -/

/-- `ir[7:6]` is the opcode byte divided by 64. -/
theorem operandCount_toNat (ir : Byte) : (operandCount ir).toNat = ir.toNat / 64 := by
  have bound := ir.isLt
  rw [operandCount, BitVec.extractLsb'_toNat, Nat.shiftRight_eq_div_pow]
  omega

/-- No row of the opcode map has 3 in its count field. -/
theorem operandCount_byte_le (o : Opcode) : (operandCount o.byte).toNat ≤ 2 := by
  cases o <;> decide

/-- A byte whose count field is 3 is in no row of the opcode map. -/
theorem decodeOpcode_eq_none_of_count {ir : Byte} (h : 192 ≤ ir.toNat) : decodeOpcode ir = none := by
  refine Option.eq_none_iff_forall_ne_some.mpr fun o ho => ?_
  have atMostTwo := operandCount_byte_le o
  rw [← (decodeOpcode_eq_some_iff ir o).mp ho, operandCount_toNat] at atMostTwo
  omega

/-! ### The count as a length -/

/-- The length of an instruction is its operand count plus 1. -/
theorem encode_length (i : Instr) : (encode i).length = i.nOps.toNat + 1 := by
  rw [encode, List.length_cons, nOps_toNat]

/-- Operand bytes that decode under an opcode are those of an instruction of its row, then the bytes left over. (The
lists too short for their format are no cases of the match: they give `missingOperand`.) -/
theorem decodeOperands_eq_instr {o : Opcode} {tail rest : List Byte} {i : Instr}
    (h : decodeOperands o tail = .instr i rest) : o = i.opcode ∧ tail = i.operands ++ rest := by
  match o, tail with
  | .hlt, _ | .prn, _ :: _ | .jmp, _ :: _ | .jeq, _ :: _ | .jne, _ :: _
  | .ldi, _ :: _ :: _ | .mul, _ :: _ :: _ | .cmp, _ :: _ :: _ =>
    cases h
    exact ⟨rfl, rfl⟩

/-- Bytes that decode are the encoding of the instruction, then the bytes left over. -/
theorem eq_encode_append_of_decode {bytes rest : List Byte} {i : Instr} (h : decode bytes = .instr i rest) :
    bytes = encode i ++ rest := by
  obtain ⟨o, tail, rfl, ho⟩ := decode_instr_cases h
  obtain ⟨rfl, rfl⟩ := decodeOperands_eq_instr ho
  rfl

/-! ### The count as an advance -/

/-- From a `PC` of at most 256 the advance does not wrap on nine bits. -/
theorem advance_toNat {pc : Addr} (hpc : pc.toNat ≤ 256) (n : BitVec 2) :
    (advance pc n).toNat = pc.toNat + (n.toNat + 1) := by
  unfold advance
  bv_omega

/-! ### The obligation -/

/-- Settles O5: the first byte is the opcode byte of what is decoded (`eq_encode_append_of_decode`), so its count field is
`Instr.nOps`, which is the length less 1 (`encode_length`) and what `advance` adds. -/
theorem operandCountFieldGivesTheLength : Obligations.OperandCountFieldGivesTheLength := by
  unfold Obligations.OperandCountFieldGivesTheLength
  refine ⟨fun ir bytes rest i h => ?_, fun ir bytes hir => by rw [decode, decodeOpcode_eq_none_of_count hir]⟩
  have layout := eq_encode_append_of_decode h
  obtain ⟨rfl, -⟩ : ir = i.opcode.byte ∧ bytes = i.operands ++ rest := List.cons_eq_cons.mp layout
  have count : i.nOps.toNat = i.opcode.byte.toNat / 64 := operandCount_toNat _
  rw [layout, List.length_append, encode_length, ← count]
  exact ⟨rfl, rfl, rfl, operandCount_byte_le _, fun pc hpc => advance_toNat hpc _⟩

end Sys2Proof.Machine
end

section
/-! PROOF. The opcode decoder (40_execution_cycle.md R74): its nine results by the value of the byte, and the decoder
block's output for a defined opcode. -/

namespace Sys2Proof.Machine

/-- An undefined byte has the value of no row of the opcode map. -/
theorem toNat_ne_of_undefined {ir : Byte} (h : decodeOpcode ir = none) (o : Opcode) : ir.toNat ≠ o.byte.toNat := by
  intro same
  rw [BitVec.eq_of_toNat_eq same, decodeOpcode_byte] at h
  cases h

/-- R74: the nine results by the value of the byte. -/
theorem decodeOpcode_eq_ite (ir : Byte) : decodeOpcode ir =
    if ir.toNat = 1 then some .hlt else if ir.toNat = 71 then some .prn else if ir.toNat = 84 then some .jmp
    else if ir.toNat = 85 then some .jeq else if ir.toNat = 86 then some .jne else if ir.toNat = 130 then some .ldi
    else if ir.toNat = 162 then some .mul else if ir.toNat = 167 then some .cmp else none := by
  cases ho : decodeOpcode ir with
  | some o =>
    obtain rfl := (decodeOpcode_eq_some_iff ir o).mp ho
    cases o <;> rfl
  | none =>
    have ne := toNat_ne_of_undefined ho
    exact ((if_neg (ne .hlt)).trans <| (if_neg (ne .prn)).trans <| (if_neg (ne .jmp)).trans <|
      (if_neg (ne .jeq)).trans <| (if_neg (ne .jne)).trans <| (if_neg (ne .ldi)).trans <|
      (if_neg (ne .mul)).trans <| if_neg (ne .cmp)).symm

/-- An undefined byte is refused whatever follows it. -/
theorem decode_undefined {ir : Byte} (h : decodeOpcode ir = none) (bytes : List Byte) :
    decode (ir :: bytes) = .unknownOpcode ir := by rw [decode, h]

/-- R131, the `instr` column: each row's byte gives that row. -/
theorem instructionDecoder_instr (d : DontCare) (o : Opcode) : (instructionDecoder d o.byte).instr = o := by
  cases o <;> rfl

/-- Settles O1: a defined byte is the byte of its row (`decodeOpcode_eq_some_iff`), for the decoder block too, and any
other byte differs from all eight. -/
theorem opcodeByteHasOneOfNineResults : Obligations.OpcodeByteHasOneOfNineResults := by
  unfold Obligations.OpcodeByteHasOneOfNineResults
  refine ⟨decodeOpcode_eq_ite, fun _ bytes h => decode_undefined h bytes,
    fun d ir => ⟨instructionDecoder_valid d ir, fun o ho => ?_⟩⟩
  rw [(decodeOpcode_eq_some_iff ir o).mp ho, instructionDecoder_instr]

end Sys2Proof.Machine
end

section
/-! PROOF. The program counter after a step (40_execution_cycle.md R72): the instruction fetched stands at `PC`, which
effects have a target, and what the commit makes of it. -/

namespace Sys2Proof.Machine

/-! ### The instruction fetched stands at `PC` -/

/-- The converse of `storedAtPc.fetch_eq`: the bytes of a fetched instruction stand at `PC`. -/
theorem storedAtPc_of_fetch {i : Instr} {s : State} (h : fetch s = .ok i) : storedAtPc i s := by
  rw [fetch] at h
  cases hd : decode (fetchWindow s) with
  | noOpcode | unknownOpcode _ | missingOperand _ =>
    rw [hd] at h
    cases h
  | instr j rest =>
    rw [hd] at h
    cases h
    have layout : encode i <+: fetchWindow s := ⟨rest, (eq_encode_append_of_decode hd).symm⟩
    intro k hk
    have inWindow : k < (fetchWindow s).length := hk.trans_le layout.length_le
    refine ⟨?_, by rw [layout.getElem hk, fetchWindow_getElem inWindow]⟩
    rw [fetchWindow_length] at inWindow
    simp only [memSize_eq]
    omega

/-- The byte at `PC` is the opcode byte of the instruction stored there. -/
theorem storedAtPc.read_pc {i : Instr} {s : State} (h : storedAtPc i s) : s.mem.read s.pc.toNat = i.opcode.byte :=
  (h 0 (by simp [encode])).2

/-- An instruction stored at `PC` begins inside the memory. -/
theorem storedAtPc.pc_lt {i : Instr} {s : State} (h : storedAtPc i s) : s.pc.toNat < 256 :=
  (h 0 (by simp [encode])).1

/-- A step that does not fault commits the effect of the instruction stored at `PC`. -/
theorem step_eq_commit {s t : State} (h : step s = .next t) (noFault : ∀ c, t.run ≠ .faulted c) :
    ∃ i e, storedAtPc i s ∧ operation i s = .ok e ∧ t = commit i.nOps e s := by
  obtain ⟨-, ⟨c, -, rfl⟩ | ⟨i, hf, hx⟩⟩ := step_cases h
  · exact absurd (raise_run c s) (noFault c)
  · rw [exec_next] at hx
    cases ho : operation i s with
    | error c =>
      rw [ho] at hx
      cases hx
      exact absurd (raise_run c s) (noFault c)
    | ok e =>
      rw [ho] at hx
      cases hx
      exact ⟨i, e, storedAtPc_of_fetch hf, ho, rfl⟩

/-! ### Which effects have a target -/

/-- A register write is no branch, so LDI and MUL have no target. -/
theorem writeRegister_target {a v : Byte} {e : Effect} (h : writeRegister a v = .ok e) : e.target = none := by
  by_cases ha : a.toNat < 8
  · rw [writeRegister_ok ha] at h
    cases h
    rfl
  · rw [writeRegister_error (Nat.le_of_not_lt ha)] at h
    cases h

/-- A branch has a target exactly when it is taken: the content of its register. -/
theorem branchEffect_target {taken : Bool} {a : Byte} {s : State} {e : Effect} (h : branchEffect taken a s = .ok e) :
    (taken = true ∧ ∃ _ : a.toNat < 8, e.target = some s.x[a.toNat]) ∨ (taken = false ∧ e.target = none) := by
  rcases branchEffect_cases taken a s with ⟨ht, eq⟩ | ⟨ht, ha, eq⟩ | ⟨-, -, eq⟩
  · cases eq.symm.trans h
    exact .inr ⟨ht, rfl⟩
  · cases eq.symm.trans h
    exact .inl ⟨ht, ha, rfl⟩
  · cases eq.symm.trans h

/-- The instruction is a branch on register `a` that the flags take (R100 to R102). -/
def takesBranch (i : Instr) (fl : Flags) (a : Byte) : Prop :=
  i = .jmp a ∨ (i = .jeq a ∧ fl.e = true) ∨ (i = .jne a ∧ fl.e = false)

/-- An effect has a target exactly when a branch is taken: the content of the branch's register. -/
theorem operation_target {i : Instr} {s : State} {e : Effect} (h : operation i s = .ok e) :
    (∃ (a : Byte) (_ : a.toNat < 8), takesBranch i s.fl a ∧ e.target = some s.x[a.toNat]) ∨
    ((∀ a, ¬ takesBranch i s.fl a) ∧ e.target = none) := by
  cases i with
  | hlt =>
    cases h
    exact .inr ⟨by simp [takesBranch], rfl⟩
  | prn a =>
    refine .inr ⟨by simp [takesBranch], ?_⟩
    by_cases ha : a.toNat < 8
    · rw [operation, readRegister_ok ha] at h
      cases h
      rfl
    · rw [operation, readRegister_error (Nat.le_of_not_lt ha)] at h
      cases h
  | jmp a =>
    obtain ⟨-, ha, target⟩ | ⟨no, -⟩ := branchEffect_target h
    · exact .inl ⟨a, ha, .inl rfl, target⟩
    · cases no
  | jeq a =>
    obtain ⟨equal, ha, target⟩ | ⟨unequal, target⟩ := branchEffect_target h
    · exact .inl ⟨a, ha, .inr (.inl ⟨rfl, equal⟩), target⟩
    · exact .inr ⟨by simpa [takesBranch, isEqual] using unequal, target⟩
  | jne a =>
    obtain ⟨unequal, ha, target⟩ | ⟨equal, target⟩ := branchEffect_target h
    · exact .inl ⟨a, ha, .inr (.inr ⟨rfl, by simpa [isEqual] using unequal⟩), target⟩
    · exact .inr ⟨by simpa [takesBranch, isEqual] using equal, target⟩
  | ldi _ _ => exact .inr ⟨by simp [takesBranch], writeRegister_target h⟩
  | mul _ _ =>
    obtain ⟨_, _, hw⟩ := aluApply_eq_ok h
    exact .inr ⟨by simp [takesBranch], writeRegister_target hw⟩
  | cmp _ _ =>
    obtain ⟨_, _, hw⟩ := aluApply_eq_ok h
    cases hw
    exact .inr ⟨by simp [takesBranch], rfl⟩

/-! ### The next `PC` -/

/-- The target of a taken branch is extended by a zero bit, so `PC` is its value. -/
theorem nextPc_target {e : Effect} {v : Byte} (h : e.target = some v) (n : BitVec 2) (pc : Addr) :
    (e.nextPc n pc).toNat = v.toNat := by
  rw [Effect.nextPc, h]
  exact BitVec.toNat_setWidth_of_le (by decide)

/-- Without a target `PC` advances past the instruction. -/
theorem nextPc_sequential {e : Effect} (h : e.target = none) (n : BitVec 2) (pc : Addr) :
    e.nextPc n pc = advance pc n := by
  rw [Effect.nextPc, h]

/-- The operand count of the instruction at `PC` is the count field of the byte there. -/
theorem storedAtPc.nOps_toNat {i : Instr} {s : State} (h : storedAtPc i s) :
    i.nOps.toNat = (s.mem.read s.pc.toNat).toNat / 64 := by
  rw [h.read_pc, Instr.nOps, operandCount_toNat]

/-- Settles O26: a step that does not fault commits an effect (`step_eq_commit`), and the two cases are whether that
effect has a target (`operation_target`). -/
theorem pcIsTheTargetOrTheSequentialSuccessor : Obligations.PcIsTheTargetOrTheSequentialSuccessor := by
  unfold Obligations.PcIsTheTargetOrTheSequentialSuccessor
  intro s t h noFault
  obtain ⟨i, e, stored, he, rfl⟩ := step_eq_commit h noFault
  rw [commit_pc]
  obtain ⟨a, ha, taken, target⟩ | ⟨notTaken, target⟩ := operation_target he
  · refine .inl ⟨a, ha, ?_, nextPc_target target _ _⟩
    obtain rfl | ⟨rfl, equal⟩ | ⟨rfl, unequal⟩ := taken
    · exact .inl stored
    · exact .inr (.inl ⟨stored, equal⟩)
    · exact .inr (.inr ⟨stored, unequal⟩)
  · refine .inr ⟨i, stored, fun a hi => notTaken a (.inl hi),
      fun a hi => Bool.eq_false_iff.mpr fun equal => notTaken a (.inr (.inl ⟨hi, equal⟩)),
      fun a hi => Bool.of_not_eq_false fun unequal => notTaken a (.inr (.inr ⟨hi, unequal⟩)), ?_⟩
    rw [nextPc_sequential target, advance_toNat stored.pc_lt.le, stored.nOps_toNat, Nat.add_assoc]

end Sys2Proof.Machine
end

section
/-! PROOF. The taken branch (42_branches.md R103): what it leaves with a legal index and what it raises with another, and
JMP (R100), the branch that is always taken. -/

namespace Sys2Proof.Machine

/-- A taken branch with a legal index ends with `PC` at the content of its register, extended by a zero bit; the operand
count, so the advance, plays no part. -/
theorem finish_branch_taken {a : Byte} (h : a.toNat < 8) (n : BitVec 2) (s : State) :
    finish n (branchEffect true a s) s = .next { s with pc := s.x[a.toNat].setWidth 9 } := by
  have effect : branchEffect true a s = .ok { target := some s.x[a.toNat] } := by
    simp [branchEffect, readRegister_ok h, Except.map]
  rw [effect, finish_ok, commit_target]

/-- A taken branch with an index above 7 raises InvalidRegister with that index. -/
theorem finish_branch_taken_error {a : Byte} (h : 8 ≤ a.toNat) (n : BitVec 2) (s : State) :
    finish n (branchEffect true a s) s = .next (raise (.invalidRegister a) s) := by
  have fault : branchEffect true a s = .error (.invalidRegister a) := by
    simp [branchEffect, readRegister_error h, Except.map]
  rw [fault, finish_error]

/-- Settles O8: JMP is the branch that is always taken (`finish_branch_taken`, `finish_branch_taken_error`), and the zero
bit that extends the target does not change its value. -/
theorem jmpGoesExactlyToTheRegister : Obligations.JmpGoesExactlyToTheRegister := by
  unfold Obligations.JmpGoesExactlyToTheRegister
  intro a s
  rw [exec_eq_finish]
  exact ⟨decode_encode_append (.jmp a) [],
    fun h => ⟨_, BitVec.toNat_setWidth_of_le (by decide), finish_branch_taken h _ s⟩,
    fun h => finish_branch_taken_error h _ s⟩

end Sys2Proof.Machine
end

section
/-! PROOF. LDI (43_load_immediate.md R110): the write of a register as a whole step, and the fetch of an instruction that
the end of the memory cuts off. -/

namespace Sys2Proof.Machine

/-- A register write with a legal index ends with the value in that register and `PC` past the instruction. -/
theorem finish_writeRegister {a : Byte} (h : a.toNat < 8) (n : BitVec 2) (v : Byte) (s : State) :
    finish n (writeRegister a v) s = .next { s with x := s.x.set a.toNat v, pc := advance s.pc n } := by
  rw [writeRegister_ok h, finish_ok, commit_regWrite]

/-- A register write with an index above 7 raises InvalidRegister with that index. -/
theorem finish_writeRegister_error {a : Byte} (h : 8 ≤ a.toNat) (n : BitVec 2) (v : Byte) (s : State) :
    finish n (writeRegister a v) s = .next (raise (.invalidRegister a) s) := by
  rw [writeRegister_error h, finish_error]

/-- R71: a defined opcode whose operand bytes do not all fit below 256 raises OutOfRange, and always with address 256,
the first operand byte that is missing. -/
theorem fetch_operand_past_the_end {s : State} {o : Opcode} (inside : s.pc.toNat ≤ 255)
    (opcode : s.mem.read s.pc.toNat = o.byte) (past : 255 < s.pc.toNat + (operandCount o.byte).toNat) :
    fetch s = .error (.outOfRange 256) := by
  obtain ⟨tail, window, tailLength⟩ := fetchWindow_cons inside
  have atMostTwo := operandCount_byte_le o
  rcases decodeOperands_cases o tail with ⟨enough, -⟩ | ⟨-, missing⟩
  · omega
  · have address : s.pc + BitVec.ofNat 9 (tail.length + 1) = 256 := by bv_omega
    rw [fetch, window, opcode, decode, decodeOpcode_byte]
    simp only [missing, address]

/-- Settles O11: LDI is a register write of its immediate (`finish_writeRegister`, `finish_writeRegister_error`), and at
254 or 255 its two operand bytes do not fit (`fetch_operand_past_the_end`). -/
theorem ldiWritesTheImmediate : Obligations.LdiWritesTheImmediate := by
  unfold Obligations.LdiWritesTheImmediate
  intro a imm s
  rw [exec_eq_finish]
  refine ⟨decode_encode_append (.ldi a imm) [], fun h => ?_, fun h => finish_writeRegister_error h _ imm s,
    fun running atEnd opcode => ?_⟩
  · have byThree : advance s.pc (Instr.ldi a imm).nOps = s.pc + 3 := by simp
    rw [← byThree]
    exact finish_writeRegister h _ imm s
  · have count : (operandCount Opcode.ldi.byte).toNat = 2 := by decide
    exact step_fetch_error running (fetch_operand_past_the_end (o := .ldi) (by omega) opcode (by omega))

end Sys2Proof.Machine
end

section
/-! PROOF. Encoding and decoding are inverse (30_encoding.md sections 2 to 4). -/

namespace Sys2Proof.Machine

/-- Settles O3: the opcode byte selects its own row, and each row reads back the operand bytes of its format
(`decode_encode_append`). -/
theorem decodeOfEncodeIsTheInstruction : Obligations.DecodeOfEncodeIsTheInstruction := by
  unfold Obligations.DecodeOfEncodeIsTheInstruction
  exact decode_encode_append

/-- Settles O4: a row's operand decoder answers an instruction only on that instruction's own bytes
(`eq_encode_append_of_decode`). -/
theorem decodedBytesAreTheEncoding : Obligations.DecodedBytesAreTheEncoding := by
  unfold Obligations.DecodedBytesAreTheEncoding
  exact fun _ _ _ h => eq_encode_append_of_decode h

/-- Settles O2: the first eight lists are encodings (`decode_encode_append`), the last three begin with an undefined byte
(`decode_undefined`). -/
theorem encodedWordsDecodeAsTheTableSays : Obligations.EncodedWordsDecodeAsTheTableSays := by
  unfold Obligations.EncodedWordsDecodeAsTheTableSays
  exact ⟨decode_encode_append .hlt [9], decode_encode_append (.prn 5) [], decode_encode_append (.jmp 7) [],
    decode_encode_append (.jeq 255) [], decode_encode_append (.jne 0) [], decode_encode_append (.ldi 3 240) [],
    decode_encode_append (.mul 1 2) [], decode_encode_append (.cmp 2 1) [], decode_undefined (by decide) [0, 0],
    decode_undefined (by decide) [0, 1], decode_undefined (by decide) []⟩

end Sys2Proof.Machine
end

section
/-! PROOF. HLT, PRN and LDI followed by PRN (41_halt_and_output.md R90, R91). -/

namespace Sys2Proof.Machine

/-! ### The advance, with its sum as the obligations write it -/

theorem advance_zero_eq (pc : Addr) : advance pc 0#2 = pc + 1 := advance_zero pc
theorem advance_one_eq (pc : Addr) : advance pc 1#2 = pc + 2 := advance_one pc
theorem advance_two_eq (pc : Addr) : advance pc 2#2 = pc + 3 := advance_two pc

/-! ### The instructions -/

/-- Settles O6: HLT has no operand, so its commit advances `PC` by 1. -/
theorem hltHaltsAndAdvancesByOne : Obligations.HltHaltsAndAdvancesByOne := by
  unfold Obligations.HltHaltsAndAdvancesByOne
  intro s
  rw [exec_eq_finish, operation, finish_ok, commit_halt, nOps_hlt, advance_zero_eq]

/-- PRN with a legal index prints that register. -/
theorem exec_prn_ok {a : Byte} (h : a.toNat < 8) (s : State) :
    exec (.prn a) s = .next { s with out := s.out ++ [s.x[a.toNat]], pc := s.pc + 2 } := by
  have effect : operation (.prn a) s = .ok { outByte := some s.x[a.toNat] } := by
    rw [operation, readRegister_ok h]
    rfl
  rw [exec_eq_finish, effect, finish_ok, commit_outByte, nOps_prn, advance_one_eq]

/-- PRN with an index above 7 raises InvalidRegister with it. -/
theorem exec_prn_error {a : Byte} (h : 8 ≤ a.toNat) (s : State) :
    exec (.prn a) s = .next (raise (.invalidRegister a) s) := by
  have fault : operation (.prn a) s = .error (.invalidRegister a) := by
    rw [operation, readRegister_error h]
    rfl
  rw [exec_eq_finish, fault, finish_error]

/-- Settles O7. -/
theorem prnAppendsTheRegister : Obligations.PrnAppendsTheRegister := by
  unfold Obligations.PrnAppendsTheRegister
  exact fun a s => ⟨fun h => exec_prn_ok h s, fun h => exec_prn_error h s⟩

/-- Settles O15: LDI leaves `v` in register `r` and `OUT` alone (`finish_writeRegister`), and PRN appends that register
(`exec_prn_ok`). -/
theorem ldiThenPrnPrintsTheImmediate : Obligations.LdiThenPrnPrintsTheImmediate := by
  unfold Obligations.LdiThenPrnPrintsTheImmediate
  intro r v s h
  refine ⟨_, _, (exec_eq_finish _ s).trans (finish_writeRegister h _ v s), exec_prn_ok h _, ?_⟩
  simp

end Sys2Proof.Machine
end

section
/-! PROOF. JEQ and JNE (42_branches.md R101, R102): a branch on one value of `E`, taken (`finish_branch_taken`,
`finish_branch_taken_error`) and not taken. -/

namespace Sys2Proof.Machine

/-- A branch that is not taken only advances `PC`, whatever its index (decision D11). -/
theorem finish_branch_not_taken (a : Byte) (n : BitVec 2) (s : State) :
    finish n (branchEffect false a s) s = .next { s with pc := advance s.pc n } := by
  have effect : branchEffect false a s = .ok {} := rfl
  rw [effect, finish_ok, commit_none]

/-- The three ends of a branch instruction with one operand byte. -/
theorem finish_branch (taken : Bool) (a : Byte) (s : State) :
    (taken = true → ∀ h : a.toNat < 8, ∃ target : Addr, target.toNat = s.x[a.toNat].toNat ∧
      finish 1#2 (branchEffect taken a s) s = .next { s with pc := target }) ∧
    (taken = true → 8 ≤ a.toNat →
      finish 1#2 (branchEffect taken a s) s = .next { s with run := .faulted (.invalidRegister a) }) ∧
    (taken = false → finish 1#2 (branchEffect taken a s) s = .next { s with pc := s.pc + 2 }) := by
  refine ⟨?_, ?_, ?_⟩ <;> rintro rfl
  · exact fun h => ⟨_, BitVec.toNat_setWidth_of_le (by decide), finish_branch_taken h _ s⟩
  · exact fun h => finish_branch_taken_error h _ s
  · exact (finish_branch_not_taken a _ s).trans (by rw [advance_one_eq])

/-- Settles O9: JEQ is the branch taken when `E` is set. -/
theorem jeqIsTakenExactlyWhenEqual : Obligations.JeqIsTakenExactlyWhenEqual := by
  unfold Obligations.JeqIsTakenExactlyWhenEqual
  intro a s
  rw [exec_eq_finish, nOps_jeq]
  exact finish_branch s.fl.e a s

/-- Settles O10: JNE is the branch taken when `E` is clear. -/
theorem jneIsTakenExactlyWhenNotEqual : Obligations.JneIsTakenExactlyWhenNotEqual := by
  unfold Obligations.JneIsTakenExactlyWhenNotEqual
  intro a s
  rw [exec_eq_finish, nOps_jne]
  simpa only [operation, isEqual, Bool.not_eq_true', Bool.not_eq_false'] using finish_branch (!s.fl.e) a s

end Sys2Proof.Machine
end

section
/-! PROOF. The ALU (44_alu.md R115 to R120): MUL, CMP, the ADD that no byte selects, and the tag without an operation. -/

namespace Sys2Proof.Machine

/-! ### The values (R118, R121) -/

theorem mulBytes_toNat (a b : Byte) : (mulBytes a b).toNat = a.toNat * b.toNat % 256 := BitVec.toNat_ofNat ..

theorem addBytes_toNat (a b : Byte) : (addBytes a b).toNat = (a.toNat + b.toNat) % 256 := BitVec.toNat_ofNat ..

/-- The three flags of a comparison, one for each of the three orders. -/
theorem compareFlags_iff (a b : Byte) :
    ((compareFlags a b).l = true ↔ a.toNat < b.toNat) ∧ ((compareFlags a b).g = true ↔ a.toNat > b.toNat) ∧
    ((compareFlags a b).e = true ↔ a.toNat = b.toNat) :=
  ⟨decide_eq_true_iff, decide_eq_true_iff, decide_eq_true_iff⟩

/-- Exactly one flag of a comparison is set. -/
theorem compareFlags_count (a b : Byte) :
    (compareFlags a b).l.toNat + (compareFlags a b).g.toNat + (compareFlags a b).e.toNat = 1 := by
  rcases Nat.lt_trichotomy a.toNat b.toNat with lt | eq | gt
  · simp [compareFlags, lt, lt.ne, lt.le]
  · simp [compareFlags, eq]
  · simp [compareFlags, gt, gt.ne', gt.le]

/-! ### MUL and CMP -/

/-- The faults of an ALU instruction, the first index checked first (decision D12). -/
theorem finish_alu_error (tag : AluTag) (n : BitVec 2) (a b : Byte) (s : State) :
    (8 ≤ a.toNat → finish n (aluApply tag a b s) s = .next { s with run := .faulted (.invalidRegister a) }) ∧
    (a.toNat < 8 → 8 ≤ b.toNat →
      finish n (aluApply tag a b s) s = .next { s with run := .faulted (.invalidRegister b) }) :=
  ⟨fun ha => by rw [aluApply_error_a ha, finish_error, raise],
    fun ha hb => by rw [aluApply_error_b ha hb, finish_error, raise]⟩

/-- Settles O12: with legal indices MUL is a register write of the product (`finish_writeRegister`). -/
theorem mulWritesTheLowByteOfTheProduct : Obligations.MulWritesTheLowByteOfTheProduct := by
  unfold Obligations.MulWritesTheLowByteOfTheProduct
  intro a b s
  rw [exec_eq_finish, nOps_mul]
  refine ⟨decode_encode_append (.mul a b) [], fun ha hb => ⟨_, mulBytes_toNat _ _, ?_⟩, finish_alu_error _ _ a b s⟩
  rw [operation, aluApply_ok ha hb, aluResult_mul, aluEffect_value, finish_writeRegister ha, advance_two_eq]

/-- Settles O13: with legal indices CMP writes the flags of the comparison, of which one is set (`compareFlags_count`). -/
theorem cmpSetsExactlyOneFlag : Obligations.CmpSetsExactlyOneFlag := by
  unfold Obligations.CmpSetsExactlyOneFlag
  intro a b s
  rw [exec_eq_finish, nOps_cmp]
  refine ⟨decode_encode_append (.cmp a b) [], fun ha hb => ?_, finish_alu_error _ _ a b s⟩
  obtain ⟨less, greater, equal⟩ := compareFlags_iff s.x[a.toNat] s.x[b.toNat]
  refine ⟨_, less, greater, equal, compareFlags_count _ _, ?_⟩
  rw [operation, aluApply_ok ha hb, aluResult_cmp, aluEffect_flags, finish_ok, commit_flWrite, advance_two_eq]

/-! ### ADD and the fourth tag -/

/-- R131: the rows of MUL and CMP are the only ones for the ALU, and neither has the tag of ADD. -/
theorem instructionDecoder_aluOp_ne_add (d : DontCare) (o : Opcode) (h : (instructionDecoder d o.byte).isAlu = true) :
    (instructionDecoder d o.byte).aluOp ≠ Config.aluAdd := by
  cases o with
  | mul => exact (by decide : Config.aluMul ≠ Config.aluAdd)
  | cmp => exact (by decide : Config.aluCmp ≠ Config.aluAdd)
  | hlt | prn | jmp | jeq | jne | ldi => cases h

/-- Settles O32: ADD is the register write of the wrapped sum, and a valid byte is the byte of a row
(`instructionDecoder_aluOp_ne_add`). -/
theorem aluAddWrapsAndNoOpcodeSelectsIt : Obligations.AluAddWrapsAndNoOpcodeSelectsIt := by
  unfold Obligations.AluAddWrapsAndNoOpcodeSelectsIt
  refine ⟨fun a b s => ⟨fun ha hb => ⟨_, addBytes_toNat _ _, ?_⟩, aluApply_error_a, aluApply_error_b⟩,
    fun d ir valid isAlu => ?_⟩
  · rw [aluApply_ok ha hb, aluResult_add, aluEffect_value, writeRegister_ok ha]
  · rw [instructionDecoder_valid] at valid
    obtain ⟨o, ho⟩ := Option.isSome_iff_exists.mp valid
    obtain rfl := (decodeOpcode_eq_some_iff ir o).mp ho
    exact instructionDecoder_aluOp_ne_add d o isAlu

/-- A tag has no operation exactly when it is none of the three of R133. -/
theorem aluResult_unsupported_iff (tag : AluTag) (a b : Byte) : aluResult tag a b = .unsupported ↔
    tag ≠ Config.aluAdd ∧ tag ≠ Config.aluMul ∧ tag ≠ Config.aluCmp := by
  unfold aluResult
  split_ifs <;> simp_all

/-- With a legal first index, the one result that raises UnsupportedOperation is that of a tag without an operation. -/
theorem aluEffect_error_unsupported_iff {tag : AluTag} {a : Byte} (ha : a.toNat < 8) (r : AluResult) :
    aluEffect tag a r = .error (.unsupportedOperation tag) ↔ r = .unsupported := by
  cases r with
  | value y => simp [writeRegister_ok ha]
  | flags f => simp
  | unsupported => simp

/-- Settles O33. -/
theorem aluRefusesATagWithoutAnOperation : Obligations.AluRefusesATagWithoutAnOperation := by
  unfold Obligations.AluRefusesATagWithoutAnOperation
  intro tag a b s ha hb
  rw [aluApply_ok ha hb, aluEffect_error_unsupported_iff ha, aluResult_unsupported_iff]

end Sys2Proof.Machine
end

section
/-! PROOF. The whole-machine rules over the instructions: which registers they read and write (10_state.md R12, R13), what
they print (R24), how they change `RUN` (R20), and that a well-formed one completes (30_encoding.md R51). -/

namespace Sys2Proof.Machine

/-! ### An instruction is its Operation -/

/-- An instruction answers the fault that its Operation raises, or the commit of its effect. -/
theorem exec_eq_next {i : Instr} {s t : State} (h : exec i s = .next t) :
    (∃ c, operation i s = .error c ∧ t = raise c s) ∨ ∃ e, operation i s = .ok e ∧ t = commit i.nOps e s := by
  rw [exec_next] at h
  cases ho : operation i s with
  | error c =>
    rw [ho] at h
    cases h
    exact .inl ⟨c, rfl, rfl⟩
  | ok e =>
    rw [ho] at h
    cases h
    exact .inr ⟨e, rfl, rfl⟩

theorem exec_of_operation_error {i : Instr} {s : State} {c : FaultCause} (h : operation i s = .error c) :
    exec i s = .next (raise c s) := by rw [exec_eq_finish, h, finish_error]

theorem exec_of_operation_ok {i : Instr} {s : State} {e : Effect} (h : operation i s = .ok e) :
    exec i s = .next (commit i.nOps e s) := by rw [exec_eq_finish, h, finish_ok]

/-- A commit in RUNNING enters no FAULTED state. -/
theorem commit_run_ne_faulted {s : State} (running : s.run = .running) (n : BitVec 2) (e : Effect) (c : FaultCause) :
    (commit n e s).run ≠ .faulted c := by
  rw [commit_run, running]
  split <;> exact RunState.noConfusion

/-- `exec_cases` for the Operation alone, which does not look at `RUN`: in RUNNING a fault cannot be taken for a commit. -/
theorem operation_cases (i : Instr) (s : State) :
    (∃ r, r ∈ registersRead i s.fl ++ registersWritten i ∧ 7 < r.toNat ∧
      operation i s = .error (.invalidRegister r)) ∨
    ((∀ r, r ∈ registersRead i s.fl ++ registersWritten i → r.toNat < 8) ∧
      ∃ e, operation i s = .ok e ∧ (e.halt = true ↔ i = .hlt) ∧ (e.outByte ≠ none → ∃ a, i = .prn a)) := by
  have same : operation i { s with run := .running } = operation i s := by cases i <;> rfl
  rcases exec_cases i { s with run := .running } with ⟨r, accessed, bad, hx⟩ | ⟨legal, e, he, -, halt, out⟩
  · rcases exec_eq_next hx with ⟨c, hc, eq⟩ | ⟨e, -, eq⟩
    · cases eq
      exact .inl ⟨r, accessed, bad, same ▸ hc⟩
    · exact absurd (congrArg State.run eq).symm (commit_run_ne_faulted rfl _ e _)
  · exact .inr ⟨legal, e, same ▸ he, halt, out⟩

/-! ### RUN (R20) -/

/-- Settles O20: the two cases of `exec_cases`, the commit halting exactly when the instruction is HLT. -/
theorem runChangesOnlyByHltOrByAFault : Obligations.RunChangesOnlyByHltOrByAFault := by
  unfold Obligations.RunChangesOnlyByHltOrByAFault
  intro i s t h
  rcases exec_cases i s with ⟨r, accessed, bad, hx⟩ | ⟨-, e, -, hx, halt, -⟩
  · cases h.symm.trans hx
    exact .inr (.inr ⟨r, accessed, bad, rfl⟩)
  · cases h.symm.trans hx
    by_cases hi : i = .hlt
    · exact .inr (.inl ⟨hi, by simp [halt.mpr hi]⟩)
    · exact .inl ⟨by simp [mt halt.mp hi], hi⟩

/-- The operands that a well-formed instruction presents to the register file are legal, taken or not. -/
theorem accessed_lt_of_wellFormed {i : Instr} (h : i.wellFormed = true) (fl : Flags) {r : Byte}
    (accessed : r ∈ registersRead i fl ++ registersWritten i) : r.toNat < 8 := by
  cases i with
  | hlt => cases accessed
  | prn a | jmp a | ldi a _ =>
    obtain rfl : r = a := by simpa [registersRead, registersWritten] using accessed
    exact of_decide_eq_true h
  | jeq a | jne a =>
    obtain rfl : r = a := by
      by_contra ne
      cases he : fl.e <;> simp [registersRead, registersWritten, he, ne] at accessed
    exact of_decide_eq_true h
  | mul a b | cmp a b =>
    obtain ⟨ha, hb⟩ : a.toNat < 8 ∧ b.toNat < 8 := by simpa [Instr.wellFormed, legalRegister] using h
    have either : r = a ∨ r = b := by
      simp [registersRead, registersWritten] at accessed
      tauto
    rcases either with rfl | rfl <;> assumption

/-- Settles O14: with every operand legal `exec_cases` leaves the commit, which halts exactly for HLT. -/
theorem wellFormedInstructionsComplete : Obligations.WellFormedInstructionsComplete := by
  unfold Obligations.WellFormedInstructionsComplete
  intro i s h
  rcases exec_cases i s with ⟨r, accessed, bad, -⟩ | ⟨-, e, -, hx, halt, -⟩
  · have := accessed_lt_of_wellFormed h s.fl accessed
    omega
  · refine ⟨_, hx, ?_⟩
    simp only [commit_run, halt]

/-! ### OUT (R24) -/

/-- An Operation is given no output: it is the same over any other. -/
theorem operation_withOut (i : Instr) (s : State) (o : List Byte) : operation i { s with out := o } = operation i s := by
  cases i <;> rfl

/-- Settles O19: the bytes appended are those of the effect (none for a fault), and the Operation that yields it does not
read `OUT` (`operation_withOut`). -/
theorem outputIsAppendOnlyAndNeverRead : Obligations.OutputIsAppendOnlyAndNeverRead := by
  unfold Obligations.OutputIsAppendOnlyAndNeverRead
  intro i s
  rcases operation_cases i s with ⟨r, -, -, fault⟩ | ⟨-, e, effect, -, printed⟩
  · refine ⟨_, [], exec_of_operation_error fault, by simp, by simp, by simp, fun o => ?_⟩
    rw [exec_of_operation_error ((operation_withOut i s o).trans fault), List.append_nil]
    rfl
  · refine ⟨_, e.outByte.toList, exec_of_operation_ok effect, rfl, by cases e.outByte <;> simp,
      fun nonempty => printed (by simpa using nonempty), fun o => ?_⟩
    rw [exec_of_operation_ok ((operation_withOut i s o).trans effect)]
    rfl

/-! ### The registers written (R13, column "Writes") -/

theorem writeRegister_regWrite {a v : Byte} {e : Effect} (h : writeRegister a v = .ok e) :
    ∃ ha : a.toNat < 8, e.regWrite = some (⟨a.toNat, ha⟩, v) := by
  by_cases ha : a.toNat < 8
  · rw [writeRegister_ok ha] at h
    cases h
    exact ⟨ha, rfl⟩
  · rw [writeRegister_error (Nat.le_of_not_lt ha)] at h
    cases h

/-- A branch writes no register, taken or not. -/
theorem branchEffect_regWrite {taken : Bool} {a : Byte} {s : State} {e : Effect} (h : branchEffect taken a s = .ok e) :
    e.regWrite = none := by
  rcases branchEffect_cases taken a s with ⟨-, eq⟩ | ⟨-, _, eq⟩ | ⟨-, -, eq⟩ <;> cases eq.symm.trans h <;> rfl

/-- An effect that writes a register is that of an LDI or a MUL, and the register is its first operand. -/
theorem operation_regWrite {i : Instr} {s : State} {e : Effect} {r : Fin 8} {v : Byte} (h : operation i s = .ok e)
    (hw : e.regWrite = some (r, v)) :
    (∃ a imm, i = .ldi a imm ∧ a.toNat = r) ∨ ∃ a b, i = .mul a b ∧ a.toNat = r := by
  cases i with
  | hlt =>
    cases h
    cases hw
  | prn a =>
    by_cases ha : a.toNat < 8
    · rw [operation, readRegister_ok ha] at h
      cases h
      cases hw
    · rw [operation, readRegister_error (Nat.le_of_not_lt ha)] at h
      cases h
  | jmp _ | jeq _ | jne _ => cases (branchEffect_regWrite h).symm.trans hw
  | ldi a imm =>
    obtain ⟨_, written⟩ := writeRegister_regWrite h
    cases written.symm.trans hw
    exact .inl ⟨a, imm, rfl, rfl⟩
  | mul a b =>
    obtain ⟨_, _, effect⟩ := aluApply_eq_ok h
    obtain ⟨_, written⟩ := writeRegister_regWrite effect
    cases written.symm.trans hw
    exact .inr ⟨a, b, rfl, rfl⟩
  | cmp _ _ =>
    obtain ⟨_, _, effect⟩ := aluApply_eq_ok h
    cases effect
    cases hw

/-! ### The registers read (R13, column "Reads") -/

/-- Over other registers `y` the register file's answer is the same if `y` agrees on the register read. -/
theorem readRegister_withRegisters {s : State} {y : Vector Byte 8} {a : Byte}
    (agree : ∀ _ : a.toNat < 8, y[a.toNat] = s.x[a.toNat]) :
    readRegister { s with x := y } a = readRegister s a := by
  by_cases ha : a.toNat < 8
  · rw [readRegister_ok ha, readRegister_ok ha]
    exact congrArg Except.ok (agree ha)
  · rw [readRegister_error (Nat.le_of_not_lt ha), readRegister_error (Nat.le_of_not_lt ha)]

/-- A branch reads its register only when it is taken. -/
theorem branchEffect_withRegisters {s : State} {y : Vector Byte 8} {taken : Bool} {a : Byte}
    (agree : taken = true → ∀ _ : a.toNat < 8, y[a.toNat] = s.x[a.toNat]) :
    branchEffect taken a { s with x := y } = branchEffect taken a s := by
  cases taken with
  | false => rfl
  | true => exact congrArg (Except.map _) (readRegister_withRegisters (agree rfl))

theorem aluApply_withRegisters {s : State} {y : Vector Byte 8} {a b : Byte} (tag : AluTag)
    (agreeA : ∀ _ : a.toNat < 8, y[a.toNat] = s.x[a.toNat]) (agreeB : ∀ _ : b.toNat < 8, y[b.toNat] = s.x[b.toNat]) :
    aluApply tag a b { s with x := y } = aluApply tag a b s := by
  unfold aluApply
  rw [readRegister_withRegisters agreeA, readRegister_withRegisters agreeB]

/-- An Operation is the same over other registers that agree on those the table lists as read. -/
theorem operation_withRegisters {i : Instr} {s : State} {y : Vector Byte 8}
    (agree : ∀ a ∈ registersRead i s.fl, ∀ _ : a.toNat < 8, y[a.toNat] = s.x[a.toNat]) :
    operation i { s with x := y } = operation i s := by
  cases i with
  | hlt | ldi _ _ => rfl
  | prn a => exact congrArg (Except.map _) (readRegister_withRegisters (agree a (by simp [registersRead])))
  | jmp a => exact branchEffect_withRegisters fun _ => agree a (by simp [registersRead])
  | jeq a =>
    refine branchEffect_withRegisters fun taken => agree a ?_
    have equal : s.fl.e = true := taken
    simp [registersRead, equal]
  | jne a =>
    refine branchEffect_withRegisters fun taken => agree a ?_
    have unequal : s.fl.e = false := by simpa [isEqual] using taken
    simp [registersRead, unequal]
  | mul a b | cmp a b =>
    exact aluApply_withRegisters _ (agree a (by simp [registersRead])) (agree b (by simp [registersRead]))

/-- An effect gives each register the same value over any two register files, or keeps it in both. -/
theorem regs_getElem_same_or_kept (e : Effect) (x y : Vector Byte 8) (r : Fin 8) :
    (e.regs y)[r] = (e.regs x)[r] ∨ ((e.regs y)[r] = y[r] ∧ (e.regs x)[r] = x[r]) := by
  by_cases written : ∃ v, e.regWrite = some (r, v)
  · obtain ⟨v, hv⟩ := written
    exact .inl (by simp [Effect.regs, hv])
  · have kept (z : Vector Byte 8) : (e.regs z)[r] = z[r] :=
      (regs_getElem e z r).resolve_right fun ⟨v, hv, _⟩ => written ⟨v, hv⟩
    exact .inr ⟨kept y, kept x⟩

/-- Settles O16: a register that changes is written by the effect (`operation_regWrite`); the two runs have the same
Operation (`operation_withRegisters`), so they raise the same fault or commit the same effect. -/
theorem registersAreReadAndWrittenAsTheTableSays : Obligations.RegistersAreReadAndWrittenAsTheTableSays := by
  unfold Obligations.RegistersAreReadAndWrittenAsTheTableSays
  refine ⟨fun i s t r h changed => ?_, fun i s y agree => ?_⟩
  · obtain ⟨c, -, rfl⟩ | ⟨e, he, rfl⟩ := exec_eq_next h
    · exact absurd rfl changed
    · obtain ⟨v, hw, -⟩ := (regs_getElem e s.x r).resolve_left changed
      exact operation_regWrite he hw
  · have same : operation i { s with x := y } = operation i s := by
      refine operation_withRegisters fun a ha h => agree ⟨a.toNat, h⟩ ?_
      rwa [BitVec.ofNat_toNat, BitVec.setWidth_eq]
    cases ho : operation i s with
    | error c =>
      exact ⟨_, _, exec_of_operation_error ho, exec_of_operation_error (same.trans ho), rfl, rfl, rfl, rfl, rfl,
        fun r => .inr ⟨rfl, rfl⟩⟩
    | ok e =>
      exact ⟨_, _, exec_of_operation_ok ho, exec_of_operation_ok (same.trans ho), rfl, rfl, rfl, rfl, rfl,
        regs_getElem_same_or_kept e s.x y⟩

end Sys2Proof.Machine
end

section
/-! PROOF. The step (40_execution_cycle.md R70, R71; 60_exceptions.md R161 to R167): when one is taken, what it runs, the
faults of the fetch in order, and what a faulting step leaves. -/

namespace Sys2Proof.Machine

/-! ### The fetch, forward -/

/-- The fetch answers exactly the instruction that the window decodes to. -/
theorem fetch_eq_ok_iff {s : State} {i : Instr} :
    fetch s = .ok i ↔ ∃ rest, decode (fetchWindow s) = .instr i rest := by
  unfold fetch
  cases decode (fetchWindow s) <;> simp

/-- R163: past the end of the memory there is no opcode byte. -/
theorem fetch_past_the_end {s : State} (h : 255 < s.pc.toNat) : fetch s = .error (.outOfRange s.pc) := by
  rw [fetch, fetchWindow_nil h, decode]

/-- R162: an undefined byte at `PC`, whatever follows. -/
theorem fetch_undefined {s : State} (inside : s.pc.toNat ≤ 255) (h : decodeOpcode (s.mem.read s.pc.toNat) = none) :
    fetch s = .error (.unknownOpcode (s.mem.read s.pc.toNat)) := by
  obtain ⟨tail, window, -⟩ := fetchWindow_cons inside
  rw [fetch, window, decode_undefined h]

/-- HLT alone has no operand byte. -/
theorem operandCount_byte_pos {o : Opcode} (h : o ≠ .hlt) : 1 ≤ (operandCount o.byte).toNat := by
  cases o with
  | hlt => exact absurd rfl h
  | prn | jmp | jeq | jne | ldi | mul | cmp => decide

/-- Settles O24: each clause is one fault of the fetch, taken by the step; at 255 and 254 the last operand byte is at 256 or
above. -/
theorem fetchFaultsInTheOrderOfTheChecks : Obligations.FetchFaultsInTheOrderOfTheChecks := by
  unfold Obligations.FetchFaultsInTheOrderOfTheChecks
  refine fun s running => ⟨fun past => step_fetch_error running (fetch_past_the_end past),
    fun inside undefined => step_fetch_error running (fetch_undefined inside undefined),
    fun last o ho notHlt => ?_, fun lastButOne o ho twoOperands => ?_⟩
  · have opcode : s.mem.read s.pc.toNat = o.byte := by rw [last, (decodeOpcode_eq_some_iff _ _).mp ho]
    have operand : 1 ≤ (operandCount o.byte).toNat := operandCount_byte_pos notHlt
    exact step_fetch_error running (fetch_operand_past_the_end (by omega) opcode (by omega))
  · have opcode : s.mem.read s.pc.toNat = o.byte := by rw [lastButOne, (decodeOpcode_eq_some_iff _ _).mp ho]
    have two : (operandCount o.byte).toNat = 2 := by rcases twoOperands with rfl | rfl | rfl <;> decide
    exact step_fetch_error running (fetch_operand_past_the_end (by omega) opcode (by omega))

/-! ### When a step is taken, and what it runs -/

/-- Settles O21. -/
theorem stepRunsTheDecodedInstruction : Obligations.StepRunsTheDecodedInstruction := by
  unfold Obligations.StepRunsTheDecodedInstruction
  exact fun s i rest running h => step_fetch_ok running (fetch_eq_ok_iff.mpr ⟨rest, h⟩)

/-- In RUNNING there is a step: the fetch faults, or an instruction runs, which always answers a next state. -/
theorem step_of_running {s : State} (running : s.run = .running) : ∃ t, step s = .next t := by
  cases hf : fetch s with
  | error c => exact ⟨_, step_fetch_error running hf⟩
  | ok i => exact ⟨_, (step_fetch_ok running hf).trans (exec_next i s)⟩

/-- Settles O28. -/
theorem aStepIsTakenExactlyWhileRunning : Obligations.AStepIsTakenExactlyWhileRunning := by
  unfold Obligations.AStepIsTakenExactlyWhileRunning
  exact fun s => ⟨⟨step_of_running, fun ⟨_, h⟩ => (step_cases h).1⟩, step_halted, fun _ => step_faulted⟩

/-- A table word stored at a `PC` of at most 253 fills the fetch window. -/
theorem fetchWindow_withFetchWord {s : State} (wf : s.mem.wf = true) (room : s.pc.toNat ≤ 253) (nbits w : Nat) :
    fetchWindow (s.withFetchWord nbits w) = tableBytes nbits w := by
  have samePc : (s.withFetchWord nbits w).pc = s.pc := rfl
  have three : (tableBytes nbits w).length = 3 := rfl
  refine List.ext_getElem (by rw [fetchWindow_length, samePc, three]; omega) fun k hk hk' => ?_
  rw [fetchWindow_getElem, samePc]
  exact (Memory.read_load wf (by rw [three, memSize_eq]; omega)).1 k hk'

/-- Settles O23: the stored word fills the window, so the fetch decodes the word itself. -/
theorem stepRunsTheWordStoredByWithFetchWord : Obligations.StepRunsTheWordStoredByWithFetchWord := by
  unfold Obligations.StepRunsTheWordStoredByWithFetchWord
  intro s nbits w i running wf room h
  have decoded : ∃ rest, decode (tableBytes nbits w) = .instr i rest := by
    unfold decodeTableWord at h
    split at h <;> cases h
    exact ⟨_, ‹_›⟩
  rw [← fetchWindow_withFetchWord wf room] at decoded
  exact step_fetch_ok running (fetch_eq_ok_iff.mpr decoded)

/-! ### Everything a step can do -/

/-- A step that answers a next state raises a fault of the fetch, or raises InvalidRegister for the instruction stored at
`PC`, or commits that instruction's effect. -/
theorem step_outcomes {s t : State} (h : step s = .next t) :
    (∃ c, fetch s = .error c ∧ t = raise c s) ∨
    (∃ r : Byte, 7 < r.toNat ∧ t = raise (.invalidRegister r) s) ∨
    ∃ i e, storedAtPc i s ∧ (∀ r, r ∈ registersRead i s.fl ++ registersWritten i → r.toNat < 8) ∧
      operation i s = .ok e ∧ (e.halt = true ↔ i = .hlt) ∧ t = commit i.nOps e s := by
  obtain ⟨-, fault | ⟨i, hf, hx⟩⟩ := step_cases h
  · exact .inl fault
  · rcases exec_cases i s with ⟨r, -, bad, hr⟩ | ⟨legal, e, he, hc, halt, -⟩
    · cases hx.symm.trans hr
      exact .inr (.inl ⟨r, bad, rfl⟩)
    · cases hx.symm.trans hc
      exact .inr (.inr ⟨i, e, storedAtPc_of_fetch hf, legal, he, halt, rfl⟩)

/-- A step that enters FAULTED takes that fault: of the fetch, or of the register file. -/
theorem step_fault {s t : State} {c : FaultCause} (h : step s = .next t) (ht : t.run = .faulted c) :
    t = raise c s ∧ (fetch s = .error c ∨ ∃ r : Byte, 7 < r.toNat ∧ c = .invalidRegister r) := by
  rcases step_outcomes h with ⟨c', hf, rfl⟩ | ⟨r, bad, rfl⟩ | ⟨i, e, -, -, -, -, rfl⟩
  · cases ht
    exact ⟨rfl, .inl hf⟩
  · cases ht
    exact ⟨rfl, .inr ⟨r, bad, rfl⟩⟩
  · exact absurd ht (commit_run_ne_faulted (step_cases h).1 _ e c)

/-- Settles O27. -/
theorem aFaultingStepChangesOnlyRun : Obligations.AFaultingStepChangesOnlyRun := by
  unfold Obligations.AFaultingStepChangesOnlyRun
  exact fun _ _ _ h ht => (step_fault h ht).1

/-- Settles O30: neither the fetch (`fetch_error_cases`) nor the register file raises UnsupportedOperation. -/
theorem unsupportedOperationIsUnreachable : Obligations.UnsupportedOperationIsUnreachable := by
  unfold Obligations.UnsupportedOperationIsUnreachable
  intro s t tag h ht
  obtain ⟨-, hf | ⟨_, -, hc⟩⟩ := step_fault h ht
  · rcases fetch_error_cases hf with ⟨-, hc⟩ | ⟨-, -, hc⟩ | ⟨_, -, -, -, hc⟩ <;> cases hc
  · cases hc

/-- Settles O25: a step that does not fault commits the effect of the instruction stored at `PC`; an instruction that
presents no bad index is committed, and a commit enters no FAULTED state. -/
theorem stepCompletesExactlyWhenTheImageIsSound : Obligations.StepCompletesExactlyWhenTheImageIsSound := by
  unfold Obligations.StepCompletesExactlyWhenTheImageIsSound
  refine fun s running => ⟨fun ⟨t, h, noFault⟩ => ?_, fun ⟨i, stored, legal⟩ => ?_⟩
  · rcases step_outcomes h with ⟨c, -, rfl⟩ | ⟨r, -, rfl⟩ | ⟨i, _, stored, legal, -⟩
    · exact absurd rfl (noFault c)
    · exact absurd rfl (noFault (.invalidRegister r))
    · exact ⟨i, stored, legal⟩
  · rcases exec_cases i s with ⟨r, accessed, bad, -⟩ | ⟨-, e, -, hx, -⟩
    · have := legal r accessed
      omega
    · exact ⟨_, (step_fetch_ok running stored.fetch_eq).trans hx, commit_run_ne_faulted running _ e⟩

/-! ### The bytes a step reads (R34) -/

/-- A fetch that faults has looked at the byte at `PC` at most. -/
theorem fetch_error_withMemory {s : State} {c : FaultCause} {m : Memory} (h : fetch s = .error c)
    (opcode : m.read s.pc.toNat = s.mem.read s.pc.toNat) : fetch { s with mem := m } = .error c := by
  rcases fetch_error_cases h with ⟨past, rfl⟩ | ⟨inside, undefined, rfl⟩ | ⟨o, inside, defined, past, rfl⟩
  · exact fetch_past_the_end past
  · rw [← opcode] at undefined ⊢
    exact fetch_undefined (s := { s with mem := m }) inside undefined
  · exact fetch_operand_past_the_end inside (opcode.trans defined) past

/-- A fetched instruction is fetched from any memory that agrees on its bytes. -/
theorem fetch_ok_withMemory {s : State} {i : Instr} {m : Memory} (h : fetch s = .ok i)
    (agree : ∀ k, k < (encode i).length → m.read (s.pc.toNat + k) = s.mem.read (s.pc.toNat + k)) :
    fetch { s with mem := m } = .ok i := by
  have stored := storedAtPc_of_fetch h
  have storedToo : storedAtPc i { s with mem := m } :=
    fun k hk => ⟨(stored k hk).1, (agree k hk).trans (stored k hk).2⟩
  exact storedToo.fetch_eq

/-- Settles O29: the fetch gives the same fault or the same instruction, and the instruction is given no memory
(`exec_withMemory`). -/
theorem stepReadsOnlyTheInstructionsOwnBytes : Obligations.StepReadsOnlyTheInstructionsOwnBytes := by
  unfold Obligations.StepReadsOnlyTheInstructionsOwnBytes
  intro s t m h opcode agree
  obtain ⟨running, ⟨c, hf, rfl⟩ | ⟨i, hf, hx⟩⟩ := step_cases h
  · exact step_fetch_error running (fetch_error_withMemory hf opcode)
  · obtain ⟨rest, decoded⟩ := fetch_eq_ok_iff.mp hf
    have fetched : fetch { s with mem := m } = .ok i := fetch_ok_withMemory hf (agree i rest decoded)
    exact (step_fetch_ok (s := { s with mem := m }) running fetched).trans (exec_withMemory hx m)

end Sys2Proof.Machine
end

section
/-! PROOF. Reset, launch and the host's view (10_state.md R19, R26; 20_memory.md R38; 50_blocks_and_interfaces.md R142;
70_reset_and_hazards.md R190 to R194), and that the canonical form of the memory is unique. -/

namespace Sys2Proof.Machine

/-! ### The canonical form is unique -/

/-- A canonical memory that reads like one whose first cell is `k` has no bound above `k`: the byte at `k` is not 0. -/
theorem Memory.bound_le_head {lo hi k : Nat} {v : Byte} {m m' : Memory} (w : Memory.wfFrom lo ((k, v) :: m) = true)
    (w' : Memory.wfFrom hi m' = true) (alike : ∀ a, a < 256 → Memory.read ((k, v) :: m) a = m'.read a) : hi ≤ k := by
  obtain ⟨-, inside, nonzero, -⟩ := Memory.wfFrom_cons.mp w
  by_contra below
  have same := alike k inside
  rw [Memory.read_cons, if_pos rfl, Memory.read_below w' (Nat.lt_of_not_le below)] at same
  exact nonzero same

/-- Two canonical memories above a bound that read alike are the same list: they begin with the same cell, and their tails
read alike, since neither tail lists that cell. -/
theorem Memory.eq_of_read_eq {lo : Nat} {m m' : Memory} (w : Memory.wfFrom lo m = true)
    (w' : Memory.wfFrom lo m' = true) (alike : ∀ a, a < 256 → m.read a = m'.read a) : m = m' := by
  induction m generalizing lo m' with
  | nil =>
    cases m' with
    | nil => rfl
    | cons c m' => exact absurd (Memory.bound_le_head (hi := c.1 + 1) w' rfl fun a h => (alike a h).symm) (by omega)
  | cons c m ih =>
    obtain ⟨k, v⟩ := c
    obtain ⟨-, inside, -, wm⟩ := Memory.wfFrom_cons.mp w
    cases m' with
    | nil => exact absurd (Memory.bound_le_head (hi := k + 1) w rfl alike) (by omega)
    | cons c' m' =>
      obtain ⟨k', v'⟩ := c'
      obtain ⟨-, -, nonzero', wm'⟩ := Memory.wfFrom_cons.mp w'
      have upper : k' ≤ k := Memory.bound_le_head w (Memory.wfFrom_cons.mpr ⟨le_rfl, (Memory.wfFrom_cons.mp w').2⟩) alike
      have lower : k ≤ k' := Memory.bound_le_head w' (Memory.wfFrom_cons.mpr ⟨le_rfl, (Memory.wfFrom_cons.mp w).2⟩)
        fun a h => (alike a h).symm
      obtain rfl := le_antisymm lower upper
      have sameByte := alike k inside
      rw [Memory.read_cons, Memory.read_cons, if_pos rfl, if_pos rfl] at sameByte
      rw [sameByte, ih wm wm' fun a h => ?_]
      by_cases ha : k = a
      · rw [← ha, Memory.read_below wm (Nat.lt_succ_self k), Memory.read_below wm' (Nat.lt_succ_self k)]
      · simpa only [Memory.read_cons, if_neg ha] using alike a h

/-- Settles O39. -/
theorem memoriesThatReadAlikeAreEqual : Obligations.MemoriesThatReadAlikeAreEqual := by
  unfold Obligations.MemoriesThatReadAlikeAreEqual
  exact fun _ _ w w' alike => Memory.eq_of_read_eq w w' alike

/-! ### Reset (R26) -/

/-- Settles O40. -/
theorem resetLeavesTheStatedValues : Obligations.ResetLeavesTheStatedValues := by
  unfold Obligations.ResetLeavesTheStatedValues
  exact ⟨rfl, rfl, Memory.read_nil, by decide, rfl, rfl⟩

/-- The reset state with any memory in its canonical form meets the invariant. -/
theorem reset_withMemory_inv {m : Memory} (w : m.wf = true) : State.Inv { State.reset with mem := m } where
  memory := w
  counter := Nat.zero_le _
  flags := rfl
  runState := rfl

/-- Settles O41. -/
theorem resetMeetsTheInvariant : Obligations.ResetMeetsTheInvariant := by
  unfold Obligations.ResetMeetsTheInvariant
  exact reset_withMemory_inv reset_mem_wf

/-! ### Launch (R38, R191) -/

theorem launch_ok {image : List Byte} (h : image.length ≤ 256) :
    launch image = .next { State.reset with mem := Memory.load 0 image [] } := if_pos h

theorem launch_refused {image : List Byte} (h : 256 < image.length) :
    launch image = .refused (.imageTooLong image.length) := if_neg (Nat.not_le_of_lt h)

/-- A launched state is the reset state with the image loaded over empty memory. -/
theorem launch_eq_next {image : List Byte} {s : State} (h : launch image = .next s) :
    s = { State.reset with mem := Memory.load 0 image [] } := by
  rcases Nat.lt_or_ge 256 image.length with long | fits
  · rw [launch_refused long] at h
    cases h
  · rw [launch_ok fits] at h
    cases h
    rfl

/-- Settles O43. -/
theorem anImageLongerThanTheMemoryIsRefused : Obligations.AnImageLongerThanTheMemoryIsRefused := by
  unfold Obligations.AnImageLongerThanTheMemoryIsRefused
  exact fun _ => launch_refused

/-- Settles O53: the launched state is the reset state but for the memory (`launch_eq_next`). -/
theorem launchLeavesRegistersFlagsAndOutputAtReset : Obligations.LaunchLeavesRegistersFlagsAndOutputAtReset := by
  unfold Obligations.LaunchLeavesRegistersFlagsAndOutputAtReset
  intro image s h
  obtain ⟨-, -, -, registers, flags, out⟩ := resetLeavesTheStatedValues
  rw [launch_eq_next h]
  exact ⟨registers, flags, out⟩

/-- Settles O42: the image is loaded at address 0 over cells that read 0 (`Memory.read_load`), and the rest of the state
is that of reset. -/
theorem launchPlacesTheImageFromAddressZero : Obligations.LaunchPlacesTheImageFromAddressZero := by
  unfold Obligations.LaunchPlacesTheImageFromAddressZero
  intro image fits
  obtain ⟨inside, outside⟩ := Memory.read_load (bs := image) (a := 0) (m := []) rfl (by rwa [Nat.zero_add])
  simp only [Nat.zero_add] at inside outside
  refine ⟨_, launch_ok fits, inside, fun a h => outside a (.inr h), rfl, rfl, ?_, reset_withMemory_inv (Memory.load_wf rfl)⟩
  obtain ⟨tail, window, -⟩ := fetchWindow_cons (s := { State.reset with mem := Memory.load 0 image [] }) (Nat.zero_le _)
  rw [window]
  rfl

/-- Settles O44: the empty memory's byte at `PC` is 0, which is undefined. -/
theorem theEmptyImageFaultsAtOnce : Obligations.TheEmptyImageFaultsAtOnce := by
  unfold Obligations.TheEmptyImageFaultsAtOnce
  exact ⟨State.reset, rfl, step_fetch_error rfl (fetch_undefined (Nat.zero_le _) (by decide))⟩

/-! ### The status port (R142) and the read-out (R19) -/

theorem statusPort_running {s : State} (h : s.run = .running) : statusPort s =
    { running := true, halted := false, faulted := false, faultKind := 0, faultInfo := 0 } := by rw [statusPort, h]

theorem statusPort_halted {s : State} (h : s.run = .halted) : statusPort s =
    { running := false, halted := true, faulted := false, faultKind := 0, faultInfo := 0 } := by rw [statusPort, h]

theorem statusPort_faulted {s : State} {c : FaultCause} (h : s.run = .faulted c) : statusPort s =
    { running := false, halted := false, faulted := true, faultKind := c.code, faultInfo := c.info } := by
  rw [statusPort, h]

/-- Settles O36: one case for each run state; the recorded value loses nothing on the nine bits of the port. -/
theorem statusPortShowsTheRunState : Obligations.StatusPortShowsTheRunState := by
  unfold Obligations.StatusPortShowsTheRunState
  intro s
  cases h : s.run with
  | running => simp [statusPort_running h]
  | halted => simp [statusPort_halted h]
  | faulted c =>
    rw [statusPort_faulted h]
    refine ⟨rfl, by simp, by simp, by simp, ?_, ?_, ?_, ?_⟩ <;> rintro info ⟨⟩
    · exact ⟨rfl, BitVec.toNat_setWidth_of_le (by decide)⟩
    · exact ⟨rfl, rfl⟩
    · exact ⟨rfl, BitVec.toNat_setWidth_of_le (by decide)⟩
    · exact ⟨rfl, BitVec.toNat_setWidth_of_le (by decide)⟩

/-- The eight packings. -/
theorem packFlags_bits : ∀ l g e : Bool,
    (packFlags ⟨l, g, e⟩).getLsbD 2 = l ∧ (packFlags ⟨l, g, e⟩).getLsbD 1 = g ∧
    (packFlags ⟨l, g, e⟩).getLsbD 0 = e ∧ (packFlags ⟨l, g, e⟩).toNat < 8 := by decide

/-- Settles O37. -/
theorem packedFlagsHaveLGEInBitsTwoOneZero : Obligations.PackedFlagsHaveLGEInBitsTwoOneZero := by
  unfold Obligations.PackedFlagsHaveLGEInBitsTwoOneZero
  exact fun s => packFlags_bits s.fl.l s.fl.g s.fl.e

end Sys2Proof.Machine
end

section
/-! PROOF. The invariant (10_state.md R15, R18; 60_exceptions.md R161): every step keeps it. -/

namespace Sys2Proof.Machine

/-- The last byte of an instruction stored at `PC` is inside the memory. -/
theorem storedAtPc.end_le {i : Instr} {s : State} (h : storedAtPc i s) : s.pc.toNat + (i.nOps.toNat + 1) ≤ 256 :=
  (h i.nOps.toNat (by rw [encode_length]; omega)).1

/-- R15: the commit of an instruction stored at `PC` leaves `PC` at a byte or past the instruction. -/
theorem commit_pc_le {i : Instr} {s : State} {e : Effect} (stored : storedAtPc i s) (he : operation i s = .ok e) :
    (commit i.nOps e s).pc.toNat ≤ 256 := by
  rw [commit_pc]
  obtain ⟨a, ha, -, target⟩ | ⟨-, target⟩ := operation_target he
  · rw [nextPc_target target]
    exact (s.x[a.toNat]).isLt.le
  · rw [nextPc_sequential target, advance_toNat stored.pc_lt.le]
    exact stored.end_le

/-- R18: the flags that an effect writes are those of a comparison, exactly one of them set. -/
theorem operation_flWrite_legal {i : Instr} {s : State} {e : Effect} {f : Flags} (h : operation i s = .ok e)
    (hf : e.flWrite = some f) : legalFlags f = true := by
  obtain kept | ⟨a, b, rfl⟩ := operation_flWrite h
  · cases kept.symm.trans hf
  · obtain ⟨ha, hb, effect⟩ := aluApply_eq_ok h
    cases effect
    cases hf
    exact decide_eq_true (compareFlags_count s.x[a.toNat] s.x[b.toNat]).le

/-- R161: from a `PC` of at most 256 a fetch that faults records an undefined byte or the address 256. -/
theorem fetch_error_legal {s : State} {c : FaultCause} (counter : s.pc.toNat ≤ 256) (h : fetch s = .error c) :
    legalCause c = true := by
  rcases fetch_error_cases h with ⟨past, rfl⟩ | ⟨-, undefined, rfl⟩ | ⟨_, -, -, -, rfl⟩
  · have at256 : s.pc = 256 := BitVec.eq_of_toNat_eq (Nat.le_antisymm counter past)
    exact decide_eq_true at256
  · exact decide_eq_true undefined
  · rfl

/-- A fault with a legal cause keeps the invariant, since it changes `RUN` alone. -/
theorem State.Inv.raise {s : State} {c : FaultCause} (inv : s.Inv) (legal : legalCause c = true) :
    (raise c s).Inv where
  memory := inv.memory
  counter := inv.counter
  flags := inv.flags
  runState := legal

/-- The commit of the instruction stored at `PC` keeps the invariant. -/
theorem State.Inv.commit {i : Instr} {s : State} {e : Effect} (inv : s.Inv) (stored : storedAtPc i s)
    (he : operation i s = .ok e) : (commit i.nOps e s).Inv where
  memory := inv.memory
  counter := commit_pc_le stored he
  flags := by
    rw [commit_fl]
    cases hf : e.flWrite with
    | none => exact inv.flags
    | some f => exact operation_flWrite_legal he hf
  runState := by
    rw [commit_run]
    split
    · rfl
    · exact inv.runState

/-- A step keeps the invariant, case by case of what it can do. -/
theorem State.Inv.step {s t : State} (inv : s.Inv) (h : step s = .next t) : t.Inv := by
  rcases step_outcomes h with ⟨c, hf, rfl⟩ | ⟨r, bad, rfl⟩ | ⟨i, e, stored, -, he, -, rfl⟩
  · exact inv.raise (fetch_error_legal inv.counter hf)
  · exact inv.raise (decide_eq_true bad)
  · exact inv.commit stored he

/-- Settles O31. -/
theorem everyStepKeepsTheInvariant : Obligations.EveryStepKeepsTheInvariant := by
  unfold Obligations.EveryStepKeepsTheInvariant
  exact fun _ _ inv h => inv.step h

end Sys2Proof.Machine
end

section
/-! PROOF. Runs (40_execution_cycle.md R76 to R78; 70_reset_and_hazards.md R192): what a run keeps, how it can end, what its
last step was, and the period of a run that never ends. -/

namespace Sys2Proof.Machine

/-! ### What a run keeps -/

theorem runsTo_one {s t : State} : runsTo 1 s t ↔ step s = .next t := by
  simp [runsTo_succ (k := 0)]

/-- What every step keeps, every run keeps. -/
theorem runsTo.invariant {P : State → Prop} (kept : ∀ u v, P u → step u = .next v → P v) {k : Nat} {s t : State}
    (h : runsTo k s t) (hs : P s) : P t := by
  induction k generalizing s with
  | zero => exact runsTo_zero.mp h ▸ hs
  | succ k ih =>
    obtain ⟨u, hu, ht⟩ := runsTo_succ.mp h
    exact ih ht (kept s u hs hu)

/-- A run keeps the memory, as each step does (`step_mem`). -/
theorem runsTo.mem {k : Nat} {s t : State} (h : runsTo k s t) : t.mem = s.mem :=
  h.invariant (P := fun u => u.mem = s.mem) (fun _ _ hu step => (step_mem step).trans hu) rfl

/-- A step appends at most one byte to `OUT`. -/
theorem step_out {s t : State} (h : step s = .next t) : ∃ bytes, bytes.length ≤ 1 ∧ t.out = s.out ++ bytes := by
  rcases step_outcomes h with ⟨c, -, rfl⟩ | ⟨r, -, rfl⟩ | ⟨i, e, -, -, -, -, rfl⟩
  · exact ⟨[], Nat.zero_le 1, by simp⟩
  · exact ⟨[], Nat.zero_le 1, by simp⟩
  · exact ⟨e.outByte.toList, by cases e.outByte <;> simp, rfl⟩

/-- A run appends at most one byte a step to `OUT`. -/
theorem runsTo.out {k : Nat} {s t : State} (h : runsTo k s t) :
    ∃ bytes, bytes.length ≤ k ∧ t.out = s.out ++ bytes := by
  induction k generalizing s with
  | zero =>
    cases runsTo_zero.mp h
    exact ⟨[], le_rfl, by simp⟩
  | succ k ih =>
    obtain ⟨u, hu, ht⟩ := runsTo_succ.mp h
    obtain ⟨first, atMostOne, out⟩ := step_out hu
    obtain ⟨rest, atMostK, out'⟩ := ih ht
    refine ⟨first ++ rest, ?_, by rw [out', out, List.append_assoc]⟩
    rw [List.length_append]
    omega

/-- Settles O46. -/
theorem aRunKeepsTheMemoryAndOnlyExtendsOut : Obligations.ARunKeepsTheMemoryAndOnlyExtendsOut := by
  unfold Obligations.ARunKeepsTheMemoryAndOnlyExtendsOut
  exact fun _ _ _ h => ⟨h.mem, h.out⟩

/-- Settles O45: a reset restores everything but the memory, and the run has kept that. -/
theorem resetDuringARunGivesTheLaunchedStateBack : Obligations.ResetDuringARunGivesTheLaunchedStateBack := by
  unfold Obligations.ResetDuringARunGivesTheLaunchedStateBack
  intro image s t k launched h
  rw [coreReset, h.mem, launch_eq_next launched]

/-! ### How a run can end -/

/-- A run that has stopped goes no further. -/
theorem runsTo_le_of_stopped {j k : Nat} {s t u : State} (h : runsTo k s t) (stopped : t.run ≠ .running)
    (h' : runsTo j s u) : j ≤ k := by
  by_contra longer
  obtain ⟨d, rfl⟩ : ∃ d, j = k + (d + 1) := ⟨j - k - 1, by omega⟩
  obtain ⟨v, hv, hu⟩ := runsTo_add.mp h'
  obtain rfl := runsTo_unique h hv
  obtain ⟨w, hw, -⟩ := runsTo_succ.mp hu
  exact stopped (step_cases hw).1

/-- A run stops in one state at most. -/
theorem runsTo_stopped_unique {j k : Nat} {s t u : State} (h : runsTo k s t) (stopped : t.run ≠ .running)
    (h' : runsTo j s u) (stopped' : u.run ≠ .running) : u = t := by
  obtain rfl : j = k := le_antisymm (runsTo_le_of_stopped h stopped h') (runsTo_le_of_stopped h' stopped' h)
  exact runsTo_unique h' h

/-- Settles O47: a run stops in one state at most (`runsTo_stopped_unique`), and goes no further
(`runsTo_le_of_stopped`). -/
theorem aHaltedRunNeitherFaultsNorGoesOn : Obligations.AHaltedRunNeitherFaultsNorGoesOn := by
  unfold Obligations.AHaltedRunNeitherFaultsNorGoesOn
  rintro s o ⟨k, t, h, halted, rfl⟩
  have stopped : t.run ≠ .running := by simp [halted]
  refine ⟨?_, ?_, fun forever => ?_⟩
  · rintro o' ⟨j, u, h', halted', rfl⟩
    rw [runsTo_stopped_unique h stopped h' (by simp [halted'])]
  · rintro c ⟨j, u, h', faulted⟩
    rw [runsTo_stopped_unique h stopped h' (by simp [faulted]), halted] at faulted
    cases faulted
  · obtain ⟨u, h', -⟩ := forever (k + 1)
    exact absurd (runsTo_le_of_stopped h stopped h') (by omega)

/-- A run that is running wherever it gets never ends, since in RUNNING there is always a step. -/
theorem runsForever_of_running {s : State} (running : ∀ k t, runsTo k s t → t.run = .running) : runsForever s := by
  have reaches (k : Nat) : ∃ t, runsTo k s t := by
    induction k with
    | zero => exact ⟨s, runsTo_zero.mpr rfl⟩
    | succ k ih =>
      obtain ⟨t, ht⟩ := ih
      obtain ⟨u, hu⟩ := step_of_running (running k t ht)
      exact ⟨u, runsTo_add.mpr ⟨t, ht, runsTo_one.mpr hu⟩⟩
  exact fun k => (reaches k).imp fun t ht => ⟨ht, running k t ht⟩

/-- Settles O48: a run that does not go on for ever reaches a state that is not running (`runsForever_of_running`), which
is halted, or faulted with a cause that the invariant makes legal. -/
theorem everyRunHaltsOrFaultsOrNeverEnds : Obligations.EveryRunHaltsOrFaultsOrNeverEnds := by
  unfold Obligations.EveryRunHaltsOrFaultsOrNeverEnds
  intro s inv _
  by_cases running : ∀ k t, runsTo k s t → t.run = .running
  · exact .inr (.inr (runsForever_of_running running))
  · push Not at running
    obtain ⟨k, t, h, stopped⟩ := running
    have legal : legalRun t.run = true := (h.invariant (fun _ _ hu step => hu.step step) inv).runState
    cases ht : t.run with
    | running => exact absurd ht stopped
    | halted => exact .inl ⟨t.out, k, t, h, ht, rfl⟩
    | faulted c => exact .inr (.inl ⟨c, by rwa [ht] at legal, k, t, h, ht⟩)

/-! ### The last step of a halted run -/

/-- A step that enters HALTED commits the HLT stored at `PC`. -/
theorem step_halts {s t : State} (h : step s = .next t) (halted : t.run = .halted) :
    storedAtPc .hlt s ∧ t = { s with run := .halted, pc := advance s.pc 0#2 } := by
  rcases step_outcomes h with ⟨c, -, rfl⟩ | ⟨r, -, rfl⟩ | ⟨i, e, stored, -, he, halts, rfl⟩
  · cases halted
  · cases halted
  · rw [commit_run, (step_cases h).1] at halted
    obtain rfl : i = .hlt := halts.mp (by by_contra no; simp [no] at halted)
    cases he
    exact ⟨stored, by rw [commit_halt, nOps_hlt]⟩

/-- Settles O49: the last step of the run is a step that enters HALTED (`step_halts`). -/
theorem aHaltedRunEndsJustAfterAHlt : Obligations.AHaltedRunEndsJustAfterAHlt := by
  unfold Obligations.AHaltedRunEndsJustAfterAHlt
  intro k s t h halted
  obtain ⟨u, hu, ht⟩ := runsTo_add.mp h
  obtain ⟨stored, rfl⟩ := step_halts (runsTo_one.mp ht) halted
  exact ⟨u, hu, stored, advance_toNat stored.pc_lt.le 0#2, rfl⟩

/-! ### The period of an endless run (R78) -/

/-- The part of the state that an endless run changes and reads: registers, `PC` and flags, in a finite type. -/
def operatingPart (s : State) : (Fin 8 → Byte) × Addr × Bool × Bool × Bool :=
  (fun r => s.x[r], s.pc, s.fl.l, s.fl.g, s.fl.e)

/-- States that agree on the operating part, `RUN` and the memory differ in `OUT` at most. -/
theorem eq_withOut_of_operatingPart_eq {s u : State} (part : operatingPart u = operatingPart s) (run : u.run = s.run)
    (mem : u.mem = s.mem) : u = { s with out := u.out } := by
  obtain ⟨x, pc, ⟨l, g, e⟩, _, _, _⟩ := s
  obtain ⟨x', pc', ⟨l', g', e'⟩, _, _, _⟩ := u
  obtain ⟨registers, samePc, sameL, sameG, sameE⟩ : (fun r : Fin 8 => x'[r]) = (fun r : Fin 8 => x[r]) ∧
    pc' = pc ∧ l' = l ∧ g' = g ∧ e' = e := by simpa [operatingPart] using part
  have sameX : x' = x := Vector.ext fun r hr => congrFun registers ⟨r, hr⟩
  simp_all

/-- A step over another `OUT` is the same step but for `OUT`, which no instruction reads. -/
theorem step_withOut {s t : State} (h : step s = .next t) (o : List Byte) :
    ∃ o', step { s with out := o } = .next { t with out := o' } := by
  obtain ⟨running, ⟨c, hf, rfl⟩ | ⟨i, hf, hx⟩⟩ := step_cases h
  · exact ⟨o, step_fetch_error (s := { s with out := o }) running hf⟩
  · obtain ⟨t', bytes, ht', -, -, -, same⟩ := outputIsAppendOnlyAndNeverRead i s
    cases hx.symm.trans ht'
    exact ⟨o ++ bytes, (step_fetch_ok (s := { s with out := o }) running hf).trans (same o)⟩

/-- A run over another `OUT` is the same run but for `OUT`. -/
theorem runsTo.withOut {k : Nat} {s t : State} (h : runsTo k s t) (o : List Byte) :
    ∃ o', runsTo k { s with out := o } { t with out := o' } := by
  induction k generalizing s o with
  | zero => exact ⟨o, by rw [runsTo_zero.mp h]; exact runsTo_zero.mpr rfl⟩
  | succ k ih =>
    obtain ⟨u, hu, ht⟩ := runsTo_succ.mp h
    obtain ⟨o₁, hu'⟩ := step_withOut hu o
    obtain ⟨o₂, ht'⟩ := ih ht o₁
    exact ⟨o₂, runsTo_succ.mpr ⟨_, hu', ht'⟩⟩

/-- A state that comes back but for `OUT` after `p` steps does so from every later point of the run. -/
theorem runsTo_periodic {n p k : Nat} {s a b t u : State} (ha : runsTo n s a) (hb : runsTo (n + p) s b)
    (back : b = { a with out := b.out }) (hk : n ≤ k) (ht : runsTo k s t) (hu : runsTo (k + p) s u) :
    u = { t with out := u.out } := by
  obtain ⟨j, rfl⟩ := Nat.exists_eq_add_of_le hk
  rw [Nat.add_right_comm] at hu
  obtain ⟨a', ha', ht⟩ := runsTo_add.mp ht
  obtain ⟨b', hb', hu⟩ := runsTo_add.mp hu
  obtain rfl := runsTo_unique ha ha'
  obtain rfl := runsTo_unique hb hb'
  obtain ⟨o, again⟩ := ht.withOut b.out
  rw [← back] at again
  rw [runsTo_unique hu again]

/-- Settles O50: of the infinitely many points of the run two agree on the operating part, which has finitely many values;
the run keeps the memory, so one of the two states is the other but for `OUT`, and the run repeats (`runsTo_periodic`). -/
theorem anEndlessRunIsEventuallyPeriodic : Obligations.AnEndlessRunIsEventuallyPeriodic := by
  unfold Obligations.AnEndlessRunIsEventuallyPeriodic
  intro s forever
  choose point reached running using forever
  obtain ⟨n, m, lt, part⟩ : ∃ n m, n < m ∧ operatingPart (point m) = operatingPart (point n) := by
    obtain ⟨n, m, ne, part⟩ := Finite.exists_ne_map_eq_of_infinite (fun k => operatingPart (point k))
    rcases Nat.lt_or_gt_of_ne ne with lt | gt
    · exact ⟨n, m, lt, part.symm⟩
    · exact ⟨m, n, gt, part⟩
  obtain ⟨p, rfl⟩ := Nat.exists_eq_add_of_lt lt
  have back := eq_withOut_of_operatingPart_eq part ((running _).trans (running n).symm)
    ((reached _).mem.trans (reached n).mem.symm)
  refine ⟨n, p + 1, Nat.succ_pos p, fun k t u hk ht hu => ?_⟩
  rw [runsTo_periodic (reached n) (reached _) back hk ht hu]
  exact ⟨rfl, rfl, rfl⟩

end Sys2Proof.Machine
end

section
/-! PROOF. The network of blocks (50_blocks_and_interfaces.md R131 to R137): the fetch unit fetches what the step fetches,
the wires of each instruction carry its Operation, so one cycle of the blocks is one step. -/

namespace Sys2Proof.Machine

/-! ### The fetch unit (R138) -/

/-- What the fetch unit reads of an instruction: a byte that the instruction does not have is a don't-care. -/
def fetchedOf (d : DontCare) (i : Instr) : Fetched :=
  { ir := i.opcode.byte, opa := i.operands.getD 0 d.opa, opb := i.operands.getD 1 d.opb }

section
variable {d : DontCare} {s : State}

theorem fetchUnit_past_the_end (running : s.run = .running) (past : 255 < s.pc.toNat) :
    fetchUnit d s = .error (.outOfRange s.pc) := by
  simp [fetchUnit, fetchUses_opcode_only running (.inl past), past]

theorem fetchUnit_undefined (running : s.run = .running) (inside : s.pc.toNat ≤ 255)
    (undefined : decodeOpcode (s.mem.read s.pc.toNat) = none) :
    fetchUnit d s = .error (.unknownOpcode (s.mem.read s.pc.toNat)) := by
  simp [fetchUnit, fetchUses_opcode_only running (.inr undefined), Nat.not_lt.mpr inside, fetchPort_rdata d s.mem inside,
    instructionDecoder_valid, undefined]

/-- A defined opcode at `PC` leaves the two uses of the port for its operand bytes. -/
theorem fetchUnit_of_opcode {o : Opcode} (running : s.run = .running) (inside : s.pc.toNat ≤ 255)
    (opcode : s.mem.read s.pc.toNat = o.byte) : fetchUnit d s =
      if (fetchUses d s).opa.failed then .error (.outOfRange (fetchUses d s).opa.addr)
      else if (fetchUses d s).opb.failed then .error (.outOfRange (fetchUses d s).opb.addr)
      else .ok
        { ir := o.byte
          opa := if (fetchUses d s).opa.re then (fetchUses d s).opa.rdata else d.opa
          opb := if (fetchUses d s).opb.re then (fetchUses d s).opb.rdata else d.opb } := by
  have served : (fetchUses d s).opcode.failed = false := by
    simp [fetchUses_defined running inside opcode, inside]
  have byte : (fetchUses d s).opcode.rdata = o.byte := by
    rw [fetchUses_defined running inside opcode, fetchPort_rdata d s.mem inside, opcode]
  simp [fetchUnit, served, byte, instructionDecoder_valid]

theorem fetchUnit_operand_past_the_end {o : Opcode} (running : s.run = .running) (inside : s.pc.toNat ≤ 255)
    (opcode : s.mem.read s.pc.toNat = o.byte) (past : 255 < s.pc.toNat + (operandCount o.byte).toNat) :
    fetchUnit d s = .error (.outOfRange 256) := by
  have atMostTwo := operandCount_byte_le o
  have failed : (fetchPort d s.mem 256 true).failed = true := by simp
  rw [fetchUnit_of_opcode running inside opcode, fetchUses_defined running inside opcode]
  rcases Nat.eq_or_lt_of_le inside with last | before
  · have first : s.pc + 1 = 256 := by bv_omega
    have wanted : decide ((operandCount o.byte).toNat ≥ 1) = true := decide_eq_true (by omega)
    rw [wanted, first]
    exact if_pos failed
  · have first : ¬ 255 < (s.pc + 1).toNat := by bv_omega
    have second : s.pc + 2 = 256 := by bv_omega
    have wanted : decide ((operandCount o.byte).toNat = 2 ∧ s.pc.toNat ≤ 254) = true := decide_eq_true (by omega)
    rw [wanted, second, fetchPort_failed, decide_eq_false first, Bool.and_false]
    exact (if_neg Bool.false_ne_true).trans (if_pos failed)

/-- A use of the port at the address `n` of the memory, if it is wanted, does not fail. -/
theorem fetchPort_not_failed {a : Addr} {n : Nat} {want : Bool} (inside : want = true → a.toNat = n ∧ n ≤ 255) :
    (fetchPort d s.mem a want).failed = false := by
  cases want with
  | false => rfl
  | true =>
    obtain ⟨rfl, le⟩ := inside rfl
    rw [fetchPort_failed, decide_eq_false (Nat.not_lt.mpr le), Bool.and_false]

/-- Such a use of the port gives the byte at `n` when it is wanted, and a don't-care when it is not. -/
theorem fetchPort_byte {a : Addr} {n : Nat} {want : Bool} (inside : want = true → a.toNat = n ∧ n ≤ 255)
    (other : Byte) : (if (fetchPort d s.mem a want).re then (fetchPort d s.mem a want).rdata else other) =
      if want then s.mem.read n else other := by
  cases want with
  | false => rfl
  | true =>
    obtain ⟨rfl, le⟩ := inside rfl
    exact fetchPort_rdata d s.mem le

/-- When the operand bytes that a defined opcode has are all in range, the fetch unit reads them. -/
theorem fetchUnit_operands {o : Opcode} (running : s.run = .running) (opcode : s.mem.read s.pc.toNat = o.byte)
    (fits : s.pc.toNat + (operandCount o.byte).toNat ≤ 255) :
    fetchUnit d s = .ok
      { ir := o.byte
        opa := if 1 ≤ (operandCount o.byte).toNat then s.mem.read (s.pc.toNat + 1) else d.opa
        opb := if (operandCount o.byte).toNat = 2 then s.mem.read (s.pc.toNat + 2) else d.opb } := by
  have inside : s.pc.toNat ≤ 255 := by omega
  have room : (operandCount o.byte).toNat = 2 ∧ s.pc.toNat ≤ 254 ↔ (operandCount o.byte).toNat = 2 := by omega
  have first (want : decide ((operandCount o.byte).toNat ≥ 1) = true) :
      (s.pc + 1).toNat = s.pc.toNat + 1 ∧ s.pc.toNat + 1 ≤ 255 := by
    have one := of_decide_eq_true want
    exact ⟨by bv_omega, by omega⟩
  have second (want : decide ((operandCount o.byte).toNat = 2) = true) :
      (s.pc + 2).toNat = s.pc.toNat + 2 ∧ s.pc.toNat + 2 ≤ 255 := by
    have two := of_decide_eq_true want
    exact ⟨by bv_omega, by omega⟩
  rw [fetchUnit_of_opcode running inside opcode, fetchUses_defined running inside opcode, decide_eq_decide.mpr room,
    fetchPort_not_failed first, fetchPort_not_failed second, fetchPort_byte first, fetchPort_byte second]
  simp

/-- The fetch unit fetches the instruction stored at `PC`. -/
theorem fetchUnit_stored {i : Instr} (running : s.run = .running) (stored : storedAtPc i s) :
    fetchUnit d s = .ok (fetchedOf d i) := by
  have fits : s.pc.toNat + i.nOps.toNat ≤ 255 := Nat.le_of_lt_succ stored.end_le
  have byte (k : Nat) (hk : k < i.operands.length) : s.mem.read (s.pc.toNat + (k + 1)) = i.operands[k] :=
    (stored (k + 1) (Nat.succ_lt_succ hk)).2
  rw [fetchUnit_operands running stored.read_pc fits]
  cases i with
  | hlt => rfl
  | prn a | jmp a | jeq a | jne a =>
    have first : s.mem.read (s.pc.toNat + 1) = a := byte 0 Nat.zero_lt_one
    simp [first, fetchedOf, Instr.opcode, Instr.operands, operandCount_byte]
  | ldi a b | mul a b | cmp a b =>
    have first : s.mem.read (s.pc.toNat + 1) = a := byte 0 Nat.zero_lt_two
    have second : s.mem.read (s.pc.toNat + 2) = b := byte 1 Nat.one_lt_two
    simp [first, second, fetchedOf, Instr.opcode, Instr.operands, operandCount_byte]

end

/-! ### The register file's ports and the fault wire (R132, R136) -/

theorem readPort_legal {x : Vector Byte 8} {idx : Byte} (h : idx.toNat < 8) (other : Byte) :
    readPort x idx other = x[idx.toNat] := dif_pos h

theorem badPort_legal {idx : Byte} (h : idx.toNat < 8) (en : Bool) : badPort en idx = false := by
  simp [badPort, Nat.le_of_lt_succ h]

theorem badPort_illegal {idx : Byte} (h : 8 ≤ idx.toNat) (en : Bool) : badPort en idx = en := by
  have above : 7 < idx.toNat := h
  simp [badPort, above]

@[simp] theorem badPort_idle (idx : Byte) : badPort false idx = false := rfl

@[simp] theorem flagsRegisterNext_kept (fl lge : Flags) : flagsRegisterNext fl false lge = fl := rfl
@[simp] theorem flagsRegisterNext_written (fl lge : Flags) : flagsRegisterNext fl true lge = lge := rfl

@[simp] theorem programCounterControl_advance (pc : Addr) (n : BitVec 2) (target : Byte) :
    programCounterControl pc n false target true = advance pc n := rfl
@[simp] theorem programCounterControl_target (pc : Addr) (n : BitVec 2) (target : Byte) :
    programCounterControl pc n true target true = target.setWidth 9 := rfl
@[simp] theorem programCounterControl_fault (pc : Addr) (n : BitVec 2) (take : Bool) (target : Byte) :
    programCounterControl pc n take target false = pc := rfl

/-- R137: a cycle with a fault changes `RUN` alone. -/
theorem blockNext_fault {d : DontCare} {s : State} {f : Fetched} {c : FaultCause}
    (h : (executeWires d s f).fault = some c) : blockNext s (executeWires d s f) = raise c s := by
  have commit : (executeWires d s f).commit = false := congrArg Option.isNone h
  have out : (executeWires d s f).outValid = false := by
    have : (executeWires d s f).fault.isNone = false := congrArg Option.isNone h
    exact (congrArg (_ && ·) this).trans (Bool.and_false _)
  simp [blockNext, h, commit, out, registerFileNext_idle, raise]

/-! ### One cycle of each instruction -/

/-- R131: the row of an opcode in the decoder's table, where the table has no dash. -/
@[simp] theorem instructionDecoder_byte (d : DontCare) (o : Opcode) : instructionDecoder d o.byte =
    { valid := true, instr := o, nOps := operandCount o.byte
      isBranch := decide (o = .jmp ∨ o = .jeq ∨ o = .jne)
      isAlu := decide (o = .mul ∨ o = .cmp)
      aluOp := if o = .mul then Config.aluMul else if o = .cmp then Config.aluCmp else d.aluOp
      readsA := decide (o ≠ .hlt ∧ o ≠ .ldi)
      readsB := decide (o = .mul ∨ o = .cmp)
      writesA := decide (o = .ldi ∨ o = .mul) } := by
  cases o <;> rfl

section
variable (d : DontCare) (s : State)

theorem blockNext_hlt (a b : Byte) :
    .next (blockNext s (executeWires d s ⟨Opcode.hlt.byte, a, b⟩)) = exec .hlt s := by
  rw [exec_of_operation_ok (i := .hlt) rfl]
  simp [blockNext, executeWires, takeWire, registerFile, RegFileIn.badIdx, operandCount_byte, registerFileNext_idle]

theorem blockNext_prn (a b : Byte) :
    .next (blockNext s (executeWires d s ⟨Opcode.prn.byte, a, b⟩)) = exec (.prn a) s := by
  rcases Nat.lt_or_ge a.toNat 8 with h | h
  · rw [exec_prn_ok h, ← advance_one_eq]
    simp [blockNext, executeWires, takeWire, registerFile, RegFileIn.badIdx, operandCount_byte,
      registerFileNext_idle, badPort_legal h, readPort_legal h]
  · rw [exec_prn_error h, blockNext_fault (c := .invalidRegister a)]
    simp [executeWires, registerFile, RegFileIn.badIdx, badPort_illegal h]

/-- One cycle of a branch: `take` opens the read port, and the target is the register it reads (R136). -/
theorem blockNext_branch {o : Opcode} {taken : Bool} (branch : o = .jmp ∨ o = .jeq ∨ o = .jne)
    (take : ∀ dec : DecoderOut, dec.valid = true → dec.instr = o → takeWire dec (isEqual s.fl) = taken) (a b : Byte) :
    .next (blockNext s (executeWires d s ⟨o.byte, a, b⟩)) = finish 1#2 (branchEffect taken a s) s := by
  have count : operandCount o.byte = 1#2 := by rcases branch with rfl | rfl | rfl <;> rfl
  have others : o ≠ .hlt ∧ o ≠ .prn ∧ o ≠ .ldi ∧ o ≠ .mul ∧ o ≠ .cmp := by
    rcases branch with rfl | rfl | rfl <;> decide
  rcases branchEffect_cases taken a s with ⟨rfl, effect⟩ | ⟨rfl, h, effect⟩ | ⟨rfl, h, effect⟩
  · rw [effect, finish_ok, commit_none]
    simp [blockNext, executeWires, take, registerFile, RegFileIn.badIdx, count, branch, others, registerFileNext_idle]
  · rw [effect, finish_ok, commit_target]
    simp [blockNext, executeWires, take, registerFile, RegFileIn.badIdx, branch, others,
      registerFileNext_idle, badPort_legal h, readPort_legal h]
  · rw [effect, finish_error, blockNext_fault (c := .invalidRegister a)]
    simp [executeWires, take, registerFile, RegFileIn.badIdx, branch, others, badPort_illegal h]

theorem blockNext_ldi (a b : Byte) :
    .next (blockNext s (executeWires d s ⟨Opcode.ldi.byte, a, b⟩)) = exec (.ldi a b) s := by
  rw [exec_eq_finish, operation, immediate, nOps_ldi]
  rcases Nat.lt_or_ge a.toNat 8 with h | h
  · rw [finish_writeRegister h]
    simp [blockNext, executeWires, takeWire, registerFile, RegFileIn.badIdx, operandCount_byte, registerFileNext,
      badPort_legal h, h]
  · rw [finish_writeRegister_error h, blockNext_fault (c := .invalidRegister a)]
    simp [executeWires, registerFile, RegFileIn.badIdx, badPort_illegal h]

/-- One cycle of MUL or CMP with a bad index: the register file's order of the ports is the order of R115. -/
theorem blockNext_alu_error {o : Opcode} (alu : o = .mul ∨ o = .cmp) {a b : Byte}
    (bad : 8 ≤ a.toNat ∨ 8 ≤ b.toNat) (tag : AluTag) (n : BitVec 2) :
    .next (blockNext s (executeWires d s ⟨o.byte, a, b⟩)) = finish n (aluApply tag a b s) s := by
  have others : o ≠ .hlt ∧ o ≠ .ldi ∧ o ≠ .jmp ∧ o ≠ .jeq ∧ o ≠ .jne := by rcases alu with rfl | rfl <;> decide
  rcases Nat.lt_or_ge a.toNat 8 with ha | ha
  · have hb := bad.resolve_left (Nat.not_le.mpr ha)
    rw [aluApply_error_b ha hb, finish_error, blockNext_fault (c := .invalidRegister b)]
    simp [executeWires, registerFile, RegFileIn.badIdx, alu, others, badPort_legal ha, badPort_illegal hb]
  · rw [aluApply_error_a ha, finish_error, blockNext_fault (c := .invalidRegister a)]
    simp [executeWires, registerFile, RegFileIn.badIdx, alu, others, badPort_illegal ha]

theorem blockNext_mul (a b : Byte) :
    .next (blockNext s (executeWires d s ⟨Opcode.mul.byte, a, b⟩)) = exec (.mul a b) s := by
  rw [exec_eq_finish, operation, nOps_mul]
  by_cases legal : a.toNat < 8 ∧ b.toNat < 8
  · obtain ⟨ha, hb⟩ := legal
    rw [aluApply_ok ha hb, aluResult_mul, aluEffect_value, finish_writeRegister ha]
    simp [blockNext, executeWires, takeWire, aluBlock, registerFile, RegFileIn.badIdx, operandCount_byte,
      registerFileNext, badPort_legal ha, badPort_legal hb, readPort_legal ha, readPort_legal hb, ha]
  · exact blockNext_alu_error d s (.inl rfl) (by omega) _ _

theorem blockNext_cmp (a b : Byte) :
    .next (blockNext s (executeWires d s ⟨Opcode.cmp.byte, a, b⟩)) = exec (.cmp a b) s := by
  rw [exec_eq_finish, operation, nOps_cmp]
  by_cases legal : a.toNat < 8 ∧ b.toNat < 8
  · obtain ⟨ha, hb⟩ := legal
    rw [aluApply_ok ha hb, aluResult_cmp, aluEffect_flags, finish_ok, commit_flWrite]
    simp [blockNext, executeWires, takeWire, aluBlock, registerFile, RegFileIn.badIdx, operandCount_byte,
      registerFileNext_idle, badPort_legal ha, badPort_legal hb, readPort_legal ha, readPort_legal hb]
  · exact blockNext_alu_error d s (.inr rfl) (by omega) _ _

/-- One cycle of the blocks on what the fetch unit read of an instruction is that instruction. -/
theorem blockNext_eq_exec (i : Instr) : .next (blockNext s (executeWires d s (fetchedOf d i))) = exec i s := by
  cases i with
  | hlt => exact blockNext_hlt d s _ _
  | prn a => exact blockNext_prn d s a _
  | jmp a =>
    rw [exec_eq_finish, nOps_jmp]
    exact blockNext_branch d s (.inl rfl) (fun dec valid instr => by simp [takeWire, valid, instr]) a _
  | jeq a =>
    rw [exec_eq_finish, nOps_jeq]
    exact blockNext_branch d s (.inr (.inl rfl)) (fun dec valid instr => by simp [takeWire, valid, instr]) a _
  | jne a =>
    rw [exec_eq_finish, nOps_jne]
    exact blockNext_branch d s (.inr (.inr rfl)) (fun dec valid instr => by simp [takeWire, valid, instr]) a _
  | ldi a b => exact blockNext_ldi d s a b
  | mul a b => exact blockNext_mul d s a b
  | cmp a b => exact blockNext_cmp d s a b

end

/-! ### The obligations -/

/-- The fetch unit raises the faults of the fetch. -/
theorem fetchUnit_error {s : State} {c : FaultCause} (d : DontCare) (running : s.run = .running)
    (h : fetch s = .error c) : fetchUnit d s = .error c := by
  rcases fetch_error_cases h with ⟨past, rfl⟩ | ⟨inside, undefined, rfl⟩ | ⟨_, inside, opcode, past, rfl⟩
  · exact fetchUnit_past_the_end running past
  · exact fetchUnit_undefined running inside undefined
  · exact fetchUnit_operand_past_the_end running inside opcode past

/-- Settles O34: in RUNNING the fetch unit raises the fault of the fetch (`fetchUnit_error`) or reads the instruction
fetched (`fetchUnit_stored`), and the wires then carry that instruction (`blockNext_eq_exec`). -/
theorem blockNetworkComputesTheStep : Obligations.BlockNetworkComputesTheStep := by
  unfold Obligations.BlockNetworkComputesTheStep
  intro d s
  cases running : s.run with
  | halted => rw [step_halted running, blockStep, running]
  | faulted c => rw [step_faulted running, blockStep, running]
  | running =>
    cases hf : fetch s with
    | error c =>
      rw [step_fetch_error running hf, blockStep, running, fetchUnit_error d running hf]
      rfl
    | ok i =>
      rw [step_fetch_ok running hf, ← blockNext_eq_exec d s i, blockStep, running,
        fetchUnit_stored running (storedAtPc_of_fetch hf)]

/-- Settles O35: the step is the cycle of the blocks (O34), whose `OUT` gains exactly what its wires put on the port. -/
theorem outputPortCarriesWhatOutGains : Obligations.OutputPortCarriesWhatOutGains := by
  unfold Obligations.OutputPortCarriesWhatOutGains
  intro d s t h
  have running := (step_cases h).1
  rw [← blockNetworkComputesTheStep d s, blockStep, running] at h
  rw [outputPort, running]
  cases hf : fetchUnit d s with
  | error c =>
    rw [hf] at h
    cases h
    exact (List.append_nil s.out).symm
  | ok f =>
    rw [hf] at h
    cases h
    cases valid : (executeWires d s f).outValid <;> simp [blockNext, valid]

end Sys2Proof.Machine
end

section
/-! PROOF. The register file's ports (50_blocks_and_interfaces.md R132) and the fetch port (R138). -/

namespace Sys2Proof.Machine

/-! ### The register file (R132) -/

theorem badPort_iff {en : Bool} {idx : Byte} : badPort en idx = true ↔ en = true ∧ 7 < idx.toNat := by
  simp [badPort]

/-- Without a bad index exactly the register of a requested write changes. -/
theorem registerFileNext_getElem {x : Vector Byte 8} {i : RegFileIn} (good : i.badIdx = false) (wData : Byte)
    (r : Fin 8) :
    (registerFileNext x i wData)[r] = if i.wEn = true ∧ i.wIdx.toNat = r then wData else x[r] := by
  cases en : i.wEn with
  | false => simp [registerFileNext_idle en]
  | true =>
    have legal : i.wIdx.toNat < 8 := by
      have := (Bool.or_eq_false_iff.mp good).2
      simpa [badPort, en, Nat.lt_succ_iff] using this
    simp [registerFileNext_write legal en good, Vector.getElem_set]

/-- Settles O54. -/
theorem registerFileReadsWritesAndReportsTheFirstBadIndex :
    Obligations.RegisterFileReadsWritesAndReportsTheFirstBadIndex := by
  unfold Obligations.RegisterFileReadsWritesAndReportsTheFirstBadIndex
  refine fun d x i => ⟨fun h => readPort_legal h _, fun h => readPort_legal h _, ?_, ?_, fun wData =>
    ⟨fun bad => registerFileNext_bad bad wData, fun good => registerFileNext_getElem good wData⟩⟩
  · simp only [registerFile, RegFileIn.badIdx, Bool.or_eq_true, badPort_iff, or_assoc]
  · simp only [registerFile, badPort_iff]

/-! ### The addresses requested (R34, R138) -/

/-- When the opcode read fails, or gives an undefined byte, it is the only request. -/
theorem requestedAddresses_opcode_only {d : DontCare} {s : State} (running : s.run = .running)
    (stop : 255 < s.pc.toNat ∨ decodeOpcode (s.mem.read s.pc.toNat) = none) : requestedAddresses d s = [s.pc] := by
  rw [requestedAddresses, fetchUses_opcode_only running stop]
  rfl

/-- A defined opcode at `PC` requests `PC` and the addresses of its operand bytes, up to the first above 255. -/
theorem requestedAddresses_defined {d : DontCare} {s : State} {o : Opcode} (running : s.run = .running)
    (inside : s.pc.toNat ≤ 255) (opcode : s.mem.read s.pc.toNat = o.byte) :
    (requestedAddresses d s).map BitVec.toNat =
      List.range' s.pc.toNat (min ((operandCount o.byte).toNat + 1) (257 - s.pc.toNat)) := by
  have first : (s.pc + 1).toNat = s.pc.toNat + 1 := by bv_omega
  have atMostTwo := operandCount_byte_le o
  rw [requestedAddresses, fetchUses_defined running inside opcode]
  generalize (operandCount o.byte).toNat = n at atMostTwo ⊢
  by_cases both : n = 2 ∧ s.pc.toNat ≤ 254
  · have second : (s.pc + 2).toNat = s.pc.toNat + 2 := by bv_omega
    have length : min (n + 1) (257 - s.pc.toNat) = 3 := by omega
    rw [decide_eq_true both, decide_eq_true (by omega : n ≥ 1), length]
    change [s.pc.toNat, (s.pc + 1).toNat, (s.pc + 2).toNat] = _
    rw [first, second]
    rfl
  by_cases one : n ≥ 1
  · have length : min (n + 1) (257 - s.pc.toNat) = 2 := by omega
    rw [decide_eq_false both, decide_eq_true one, length]
    change [s.pc.toNat, (s.pc + 1).toNat] = _
    rw [first]
    rfl
  · have length : min (n + 1) (257 - s.pc.toNat) = 1 := by omega
    rw [decide_eq_false both, decide_eq_false one, length]
    rfl

/-- Settles O51. -/
theorem fetchPortRequestsExactlyTheReadsOfTheStep : Obligations.FetchPortRequestsExactlyTheReadsOfTheStep := by
  unfold Obligations.FetchPortRequestsExactlyTheReadsOfTheStep
  refine fun d s => ⟨fun idle => ?_, fun running past => requestedAddresses_opcode_only running (.inl past),
    fun running _ undefined => requestedAddresses_opcode_only running (.inr undefined),
    fun running inside o ho => ?_⟩
  · rw [requestedAddresses, fetchUses_idle idle]
    rfl
  · have opcode := (decodeOpcode_eq_some_iff _ _).mp ho
    rw [requestedAddresses_defined running inside opcode, opcode, operandCount_toNat]

/-! ### The port's address, range check and data (R138) -/

/-- What every use of the fetch port carries, requested or not, if its address is at most 256 when it is wanted. -/
theorem fetchPort_carries (d : DontCare) (m : Memory) {a : Addr} {want : Bool} {p : FetchPort}
    (hp : p = fetchPort d m a want) :
    ((want = true → a.toNat ≤ 256) → p.addr.toNat ≤ 256) ∧ (p.oor = true ↔ 255 < p.addr.toNat) ∧
    (p.addr.toNat ≤ 255 → p.rdata = m.read p.addr.toNat) := by
  subst hp
  refine ⟨fun wanted => ?_, by rw [fetchPort_oor, decide_eq_true_iff], fun h => memoryAnswer_rdata d m want h⟩
  cases want with
  | false => exact fetchPort_idle d m a
  | true => exact wanted rfl

/-- The three uses of the port in a step: an operand's address is presented as a request only after the read before it
was served, so it is at most 256. -/
theorem fetchUses_wanted (d : DontCare) (s : State) : ∃ w₀ w₁ w₂ : Bool,
    fetchUses d s = ⟨fetchPort d s.mem s.pc w₀, fetchPort d s.mem (s.pc + 1) w₁, fetchPort d s.mem (s.pc + 2) w₂⟩ ∧
    (w₁ = true → (s.pc + 1).toNat ≤ 256) ∧ (w₂ = true → (s.pc + 2).toNat ≤ 256) := by
  refine ⟨_, _, _, rfl, fun wanted => ?_, fun wanted => ?_⟩
  · have served : s.pc.toNat ≤ 255 := by
      simp only [fetchPort_served, Bool.and_eq_true, decide_eq_true_eq] at wanted
      omega
    bv_omega
  · have served : (s.pc + 1).toNat ≤ 255 ∧ s.pc.toNat ≤ 255 := by
      simp only [fetchPort_served, Bool.and_eq_true, decide_eq_true_eq] at wanted
      omega
    bv_omega

/-- A fetch raises OutOfRange with an address exactly when the step requests it and it is above 255. -/
theorem fetch_outOfRange_iff (d : DontCare) {s : State} (running : s.run = .running) (addr : Addr) :
    fetch s = .error (.outOfRange addr) ↔ addr ∈ requestedAddresses d s ∧ 255 < addr.toNat := by
  rcases Nat.lt_or_ge 255 s.pc.toNat with past | inside
  · rw [fetch_past_the_end past, requestedAddresses_opcode_only running (.inl past), List.mem_singleton]
    constructor
    · rintro ⟨⟩
      exact ⟨rfl, past⟩
    · rintro ⟨rfl, -⟩
      rfl
  cases ho : decodeOpcode (s.mem.read s.pc.toNat) with
  | none =>
    rw [fetch_undefined inside ho, requestedAddresses_opcode_only running (.inr ho), List.mem_singleton]
    constructor
    · rintro ⟨⟩
    · rintro ⟨rfl, past⟩
      omega
  | some o =>
    have opcode := (decodeOpcode_eq_some_iff _ _).mp ho
    have requested : addr ∈ requestedAddresses d s ↔ s.pc.toNat ≤ addr.toNat ∧
        addr.toNat < s.pc.toNat + min ((operandCount o.byte).toNat + 1) (257 - s.pc.toNat) := by
      rw [← List.mem_range'_1, ← requestedAddresses_defined running inside opcode,
        List.mem_map_of_injective BitVec.toNat_injective]
    have last : (256 : Addr).toNat = 256 := rfl
    rw [requested]
    constructor
    · intro h
      obtain ⟨past, -⟩ | ⟨-, -, hc⟩ | ⟨o', -, opcode', past, hc⟩ := fetch_error_cases h
      · omega
      · cases hc
      · cases hc
        rw [opcode'.symm.trans opcode] at past
        omega
    · rintro ⟨⟨-, below⟩, above⟩
      obtain rfl : addr = 256 := by bv_omega
      exact fetch_operand_past_the_end inside opcode (by omega)

/-- Settles O52. -/
theorem fetchPortCarriesTheByteOrTheRangeFault : Obligations.FetchPortCarriesTheByteOrTheRangeFault := by
  unfold Obligations.FetchPortCarriesTheByteOrTheRangeFault
  refine fun d s => ⟨fun p hp => ?_, fun running addr => ?_⟩
  · obtain ⟨w₀, w₁, w₂, uses, first, second⟩ := fetchUses_wanted d s
    rw [uses] at hp
    rcases hp with hp | hp | hp
    · obtain ⟨bound, rest⟩ := fetchPort_carries d s.mem hp
      exact ⟨fun counter => bound fun _ => counter, rest⟩
    · obtain ⟨bound, rest⟩ := fetchPort_carries d s.mem hp
      exact ⟨fun _ => bound first, rest⟩
    · obtain ⟨bound, rest⟩ := fetchPort_carries d s.mem hp
      exact ⟨fun _ => bound second, rest⟩
  · rw [← fetch_outOfRange_iff d running]
    exact ⟨fun h => fetch_outOfRange_of_step h rfl, step_fetch_error running⟩

end Sys2Proof.Machine
end
